-- ==== Sys2Proof/Word.lean ====
section
/-! DEFINITION. The machine's one data width: the byte (spec/00_scope.md R5, XLEN = 8). -/

namespace Sys2Proof

/-- A register value, a memory cell, an instruction byte, an output value: 8 bits, read as an unsigned
integer 0 to 255 wherever a rule computes with it (R10, R16, R77). -/
abbrev Byte := BitVec 8

end Sys2Proof
end

