-- ==== Sys2Proof/Config.lean ====
section
/-! DEFINITION. The implementation parameters of spec/00_scope.md R5: what is fixed for the machine and is
not state. The default opcode bytes stand in Decode.lean beside the decoder they belong to. -/

namespace Sys2Proof.Config

/-- `MEM_SIZE`: cells of memory, addresses 0 to 255 (R5, R16). -/
def memSize : Nat := 256

/-- `SP_REG`: the register PUSH and POP use (R5, R11). -/
def spReg : Fin 8 := 7

/-- `SP_RESET` (R5, R21). -/
def spReset : Byte := 255

/-- `GPR_RESET`, the reset value of registers 0 to 6 (R5, R22): the spec's own decision D14 for registers 1
to 6. Log entry 3. -/
def gprReset : Byte := 0

/-- `PC_RESET` (R5, R20). -/
def pcReset : Nat := 0

/-- `FL_RESET` (R5, R20): the flag is 0. -/
def flReset : Bool := false

/-- `MEM_FILL`: what a cell that nothing has written holds (R5, R23): the spec's own decision D15. Log
entry 4. -/
def memFill : Byte := 0

/-- `DEFAULT_PROGRAM`: the bytes a host loads when it is given no program (R5, R101). The core never falls
back on it by itself. -/
def defaultProgram : List Byte := [0x82, 0x00, 0x08, 0x47, 0x00, 0x01]

/-- `OPC_HLT`, given by the source (R45). -/
def opcHlt : Byte := 0x01

/-- `OPC_LDI`, given by the source (R45). -/
def opcLdi : Byte := 0x82

/-- `OPC_PRN`, given by the source (R45). -/
def opcPrn : Byte := 0x47

/-- The fourteen opcode bytes that the source does not give: one parameter `OPC_<MNEMONIC>` each (R46,
decision D1: OPEN). The decoder, the encoder and the cycle take them as an argument. -/
structure Opcodes where
  push : Byte
  pop  : Byte
  mul  : Byte
  and  : Byte
  or   : Byte
  xor  : Byte
  not  : Byte
  shl  : Byte
  shr  : Byte
  mod  : Byte
  cmp  : Byte
  jmp  : Byte
  jeq  : Byte
  jne  : Byte
deriving DecidableEq, Repr

/-- The seventeen opcode bytes in the order of spec/opcode_table.json. -/
def Opcodes.bytes (o : Opcodes) : List Byte :=
  [opcHlt, opcLdi, opcPrn, o.push, o.pop, o.mul, o.and, o.or, o.xor, o.not, o.shl, o.shr, o.mod, o.cmp,
    o.jmp, o.jeq, o.jne]

/-- The one constraint of R46: the parameters are pairwise distinct and distinct from 0x01, 0x82, 0x47. -/
abbrev Opcodes.Legal (o : Opcodes) : Prop := o.bytes.Nodup

end Sys2Proof.Config
end

