-- ==== Sys2Proof/Syntax.lean ====
section
/-! DEFINITION. The seventeen instructions of spec/opcode_table.json, one constructor a row, in its order. -/

namespace Sys2Proof

/-- An instruction with its operand bytes as they stand in memory (R41, R43): `r`, `ra`, `rb` are register
operand bytes, the whole byte being the index, and an index above 7 makes the instruction raise
AddressFault when it executes (WellFormed.lean says which bytes are indices). Log entry 16. -/
inductive Instr where
  /-- HLT (R60), format Z. -/
  | hlt
  /-- LDI Rr,i (R61), format RI. -/
  | ldi (r imm : Byte)
  /-- PRN Rr (R62), format R. -/
  | prn (r : Byte)
  /-- PUSH Rr (R64), format R. -/
  | push (r : Byte)
  /-- POP Rr (R65), format R. -/
  | pop (r : Byte)
  /-- MUL Ra,Rb (R68), format RR. -/
  | mul (ra rb : Byte)
  /-- AND Ra,Rb (R69), format RR. -/
  | and (ra rb : Byte)
  /-- OR Ra,Rb (R70), format RR. -/
  | or (ra rb : Byte)
  /-- XOR Ra,Rb (R71), format RR. -/
  | xor (ra rb : Byte)
  /-- NOT Ra (R72), format RX: `unused` is the third byte, part of the instruction and ignored. -/
  | not (ra unused : Byte)
  /-- SHL Ra,Rb (R73), format RR. -/
  | shl (ra rb : Byte)
  /-- SHR Ra,Rb (R74), format RR. -/
  | shr (ra rb : Byte)
  /-- MOD Ra,Rb (R75), format RR. -/
  | mod (ra rb : Byte)
  /-- CMP Ra,Rb (R76), format RR. -/
  | cmp (ra rb : Byte)
  /-- JMP Rr (R79), format R. -/
  | jmp (r : Byte)
  /-- JEQ Rr (R80), format R. -/
  | jeq (r : Byte)
  /-- JNE Rr (R81), format R. -/
  | jne (r : Byte)
deriving DecidableEq, Repr

end Sys2Proof
end

