-- ==== Sys2Proof/WellFormed.lean ====
section
/-! DEFINITION. Which operand bytes are register indices, and when an instruction is well formed. -/

namespace Sys2Proof

/-- The operand bytes that are register indices, in the order they are checked (R41, R86): HLT has none,
LDI's second byte is an immediate, NOT's second byte is unused and designates no register. -/
def Instr.regOperands : Instr → List Byte
  | .hlt => []
  | .ldi r _ => [r]
  | .prn r => [r]
  | .push r => [r]
  | .pop r => [r]
  | .mul ra rb => [ra, rb]
  | .and ra rb => [ra, rb]
  | .or ra rb => [ra, rb]
  | .xor ra rb => [ra, rb]
  | .not ra _ => [ra]
  | .shl ra rb => [ra, rb]
  | .shr ra rb => [ra, rb]
  | .mod ra rb => [ra, rb]
  | .cmp ra rb => [ra, rb]
  | .jmp r => [r]
  | .jeq r => [r]
  | .jne r => [r]

/-- Every register index is 0 to 7 (R43). An instruction that is not well formed is still an instruction:
it executes and raises AddressFault. -/
def Instr.wellFormed (i : Instr) : Bool :=
  i.regOperands.all fun k => decide (k.toNat ≤ 7)

end Sys2Proof
end

