-- ==== Sys2Proof/Decode.lean ====
section
/-! DEFINITION. The decoder and the encoder (spec/30_encoding.md), for every choice of the fourteen open
opcode bytes, and the choice the machine is built with. -/

namespace Sys2Proof

open Config

/-- The default values of R46's table (decision D1: the published LS-8 bytes, PRESUMED). Log entry 1. -/
def defaultOpcodes : Opcodes where
  push := 0x45
  pop  := 0x46
  mul  := 0xA2
  and  := 0xA8
  or   := 0xAA
  xor  := 0xAB
  not  := 0x69
  shl  := 0xAC
  shr  := 0xAD
  mod  := 0xA4
  cmp  := 0xA7
  jmp  := 0x54
  jeq  := 0x55
  jne  := 0x56

/-- What decoding three fetched bytes gives: the total mapping of R50, with its "unknown" variant. -/
inductive Decoded where
  /-- The opcode byte is one of the seventeen. -/
  | instr (i : Instr)
  /-- The opcode byte is none of them: the one-byte no-op of R48. -/
  | unrecognised (op : Byte)
deriving DecidableEq, Repr

/-- A row of the opcode map (R45, R46): the whole opcode byte, and the instruction its format (R41) makes of
`opA` and `opB`. -/
structure OpcodeRow where
  opcode : Byte
  build  : Byte → Byte → Instr

/-- The opcode map: the seventeen rows of spec/opcode_table.json, every mask being 0xFF. -/
def opcodeRows (o : Opcodes) : List OpcodeRow :=
  [⟨opcHlt, fun _ _ => .hlt⟩,
   ⟨opcLdi, fun a b => .ldi a b⟩,
   ⟨opcPrn, fun a _ => .prn a⟩,
   ⟨o.push, fun a _ => .push a⟩,
   ⟨o.pop,  fun a _ => .pop a⟩,
   ⟨o.mul,  fun a b => .mul a b⟩,
   ⟨o.and,  fun a b => .and a b⟩,
   ⟨o.or,   fun a b => .or a b⟩,
   ⟨o.xor,  fun a b => .xor a b⟩,
   ⟨o.not,  fun a b => .not a b⟩,
   ⟨o.shl,  fun a b => .shl a b⟩,
   ⟨o.shr,  fun a b => .shr a b⟩,
   ⟨o.mod,  fun a b => .mod a b⟩,
   ⟨o.cmp,  fun a b => .cmp a b⟩,
   ⟨o.jmp,  fun a _ => .jmp a⟩,
   ⟨o.jeq,  fun a _ => .jeq a⟩,
   ⟨o.jne,  fun a _ => .jne a⟩]

/-- Decode the three bytes of a fetch against a list of rows. -/
def decodeRows (op a b : Byte) : List OpcodeRow → Decoded
  | [] => .unrecognised op
  | row :: rows => if op = row.opcode then .instr (row.build a b) else decodeRows op a b rows

/-- Decode the three bytes of a fetch: all eight bits of `op` select the instruction (R55); which of `a` and
`b` belong to it its format says, the others are the next instruction's (R42). -/
def decodeFetched (o : Opcodes) (op a b : Byte) : Decoded := decodeRows op a b (opcodeRows o)

/-- Why a list of bytes gives no instruction. -/
inductive DecodeReject where
  /-- The first byte is none of the seventeen opcodes (R48). -/
  | unrecognised (op : Byte)
  /-- Fewer than the three bytes that every fetch reads (R54). -/
  | truncated (available : Nat)
deriving DecidableEq, Repr

/-- Decode the instruction at the head of a list of bytes. The machine always reads three candidate bytes
(R54), so three are asked for; those past the instruction's own length are the next instruction's (R42). -/
def decode (o : Opcodes) : List Byte → Except DecodeReject Instr
  | op :: a :: b :: _ =>
    match decodeFetched o op a b with
    | .instr i => .ok i
    | .unrecognised op => .error (.unrecognised op)
  | bytes => .error (.truncated bytes.length)

/-- The bytes of an instruction in ascending address order (R30, R41, the encoding of each instruction rule). -/
def encode (o : Opcodes) : Instr → List Byte
  | .hlt => [opcHlt]
  | .ldi r imm => [opcLdi, r, imm]
  | .prn r => [opcPrn, r]
  | .push r => [o.push, r]
  | .pop r => [o.pop, r]
  | .mul ra rb => [o.mul, ra, rb]
  | .and ra rb => [o.and, ra, rb]
  | .or ra rb => [o.or, ra, rb]
  | .xor ra rb => [o.xor, ra, rb]
  | .not ra unused => [o.not, ra, unused]
  | .shl ra rb => [o.shl, ra, rb]
  | .shr ra rb => [o.shr, ra, rb]
  | .mod ra rb => [o.mod, ra, rb]
  | .cmp ra rb => [o.cmp, ra, rb]
  | .jmp r => [o.jmp, r]
  | .jeq r => [o.jeq, r]
  | .jne r => [o.jne, r]

/-- The length in bytes (R41, R57), told by the instruction and never by bits of its opcode byte (R47): NOT
is three bytes long. -/
def Instr.length : Instr → Nat
  | .hlt => 1
  | .ldi _ _ => 3
  | .prn _ => 2
  | .push _ => 2
  | .pop _ => 2
  | .mul _ _ => 3
  | .and _ _ => 3
  | .or _ _ => 3
  | .xor _ _ => 3
  | .not _ _ => 3
  | .shl _ _ => 3
  | .shr _ _ => 3
  | .mod _ _ => 3
  | .cmp _ _ => 3
  | .jmp _ => 2
  | .jeq _ => 2
  | .jne _ => 2

/-- The three bytes of a table word, the first at the lowest address (bits 7..0 of `w` are the first byte,
R30); bits at and above `nbits` count as 0. -/
def tableWordBytes (nbits w : Nat) : List Byte :=
  let v := w % 2 ^ nbits
  [BitVec.ofNat 8 v, BitVec.ofNat 8 (v / 2 ^ 8), BitVec.ofNat 8 (v / 2 ^ 16)]

/-- The instruction the machine's decoder reads from a word of spec/opcode_table.json. -/
def decodeTableWord (nbits w : Nat) : Option Instr :=
  match decode defaultOpcodes (tableWordBytes nbits w) with
  | .ok i => some i
  | .error _ => none

end Sys2Proof
end

