-- ==== Sys2Proof/Machine/State.lean ====
section
/-! DEFINITION. The whole state of the machine (spec/10_state.md), its reset values, and the reasons a step
could leave the model. -/

namespace Sys2Proof.Machine

open Config

/-- The eight general registers R0 to R7 (R10); `r7` is the stack pointer (R11). -/
structure RegFile where
  r0 : Byte
  r1 : Byte
  r2 : Byte
  r3 : Byte
  r4 : Byte
  r5 : Byte
  r6 : Byte
  r7 : Byte
deriving DecidableEq, Repr

/-- The run state (R14). -/
inductive RunState where
  | running
  | halted
deriving DecidableEq, Repr

/-- The fault register (R15, R83). -/
inductive FaultCode where
  /-- `FAULT_NONE`, 0. -/
  | none
  /-- `FAULT_ARITH`, 1: an ArithmeticFault halted the machine. -/
  | arith
  /-- `FAULT_ADDR`, 2: an AddressFault halted the machine. -/
  | addr
deriving DecidableEq, Repr

/-- Memory (R16) as the list of the cells that differ from the fill value: addresses strictly rising, none
outside memory, no cell listed that holds `memFill`. Log entry 19. -/
abbrev Memory := List Host.Cell

/-- The canonical form of a memory. -/
abbrev Memory.wf (m : Memory) : Prop :=
  m.Pairwise (fun c d => c.1 < d.1) ∧ ∀ c ∈ m, c.1 < memSize ∧ c.2 ≠ memFill

/-- The state tuple of spec/10_state.md; nothing else is state (R18, R19). -/
structure State where
  /-- `x`: the general registers (R10). -/
  regs  : RegFile
  /-- `pc`: the address of the next instruction's opcode byte, an unsigned integer that never wraps (R12). -/
  pc    : Nat
  /-- `FL`: true is 1, the last compare found equality (R13). -/
  fl    : Bool
  /-- `run` (R14). -/
  run   : RunState
  /-- `fault` (R15). -/
  fault : FaultCode
  /-- `mem` (R16). -/
  mem   : Memory
  /-- `out`: the values PRN has emitted since reset, oldest first (R17). -/
  out   : List Byte
deriving DecidableEq, Repr

/-- The machine right after reset with no program loaded (R20 to R24): what a program adds is `load`'s. -/
def State.reset : State where
  regs :=
    { r0 := gprReset, r1 := gprReset, r2 := gprReset, r3 := gprReset, r4 := gprReset, r5 := gprReset,
      r6 := gprReset, r7 := spReset }
  pc := pcReset
  fl := flReset
  run := .running
  fault := .none
  mem := []
  out := []

/-- Why a step could stop outside the machine's own behaviour: never. Both faults of the spec are entries
into the HALTED state with a code in `fault` (R90), so they are next states; no step of this machine ends in
a fault of the model. Nothing raises one: safe. Log entry 17. -/
inductive Fault where
deriving DecidableEq, Repr

/-- Why an instruction could have no meaning in the model. -/
inductive Refusal where
  /-- Raised by an arm of `exec` for an instruction without a meaning yet; no arm does so now. Safe. -/
  | notModelled (mnemonic : String)
deriving DecidableEq, Repr

end Sys2Proof.Machine
end

