-- ==== Sys2Proof/Machine/Ops.lean ====
section
/-! DEFINITION. The named operations over registers, memory and output, the raising of a fault and its
entry, and the loading of a program. -/

namespace Sys2Proof.Machine

open Config

/-- What one step answers. -/
abbrev Result := Host.Outcome State Fault Refusal

/-- A fault `F` that `raise F` names (R83): both are fatal. -/
inductive Cause where
  /-- ArithmeticFault (R84). -/
  | arithmetic
  /-- AddressFault (R85 to R87). -/
  | address
deriving DecidableEq, Repr

/-- `code(F)` (R90). -/
def Cause.code : Cause → FaultCode
  | .arithmetic => .arith
  | .address => .addr

/-- The number of a fault code (R15, R83). -/
def FaultCode.number : FaultCode → Nat
  | .none => 0
  | .arith => 1
  | .addr => 2

/-! ### Registers (R10) -/

/-- `x[k]`. -/
def RegFile.get (r : RegFile) : Fin 8 → Byte
  | 0 => r.r0
  | 1 => r.r1
  | 2 => r.r2
  | 3 => r.r3
  | 4 => r.r4
  | 5 => r.r5
  | 6 => r.r6
  | 7 => r.r7

/-- `x[k] <- v`: every register can be written, none is hard-wired (R10). -/
def RegFile.set (r : RegFile) (k : Fin 8) (v : Byte) : RegFile :=
  match k with
  | 0 => { r with r0 := v }
  | 1 => { r with r1 := v }
  | 2 => { r with r2 := v }
  | 3 => { r with r3 := v }
  | 4 => { r with r4 := v }
  | 5 => { r with r5 := v }
  | 6 => { r with r6 := v }
  | 7 => { r with r7 := v }

/-- Read general register `k`. -/
def State.reg (s : State) (k : Fin 8) : Byte := s.regs.get k

/-- Write general register `k`. -/
def State.setReg (s : State) (k : Fin 8) (v : Byte) : State := { s with regs := s.regs.set k v }

/-- `x[7]`, the stack pointer: register 7 and nothing more (R11). -/
abbrev State.sp (s : State) : Byte := s.reg spReg

/-! ### Program counter, flag, run state, output -/

/-- `pc <- target`. -/
def State.setPc (s : State) (target : Nat) : State := { s with pc := target }

/-- `pc <- pc + n`, on unbounded integers (R57). -/
def State.advance (s : State) (n : Nat) : State := s.setPc (s.pc + n)

/-- `FL <- b` (R13). -/
def State.setFl (s : State) (b : Bool) : State := { s with fl := b }

/-- `run <- HALTED`. -/
def State.halt (s : State) : State := { s with run := .halted }

/-- `Emit(v)`: append to the output channel, which never blocks and never refuses (R17). -/
def State.emit (s : State) (v : Byte) : State := { s with out := s.out ++ [v] }

/-- Replace the whole of memory. -/
def State.setMem (s : State) (m : Memory) : State := { s with mem := m }

/-! ### Memory cells -/

/-- The cell at `a`: the listed value, or the fill value (R23, R26). -/
def Memory.read : Memory → Nat → Byte
  | [], _ => memFill
  | c :: m, a => if a = c.1 then c.2 else Memory.read m a

/-- Store `v` at `a`, keeping the canonical form. -/
def Memory.write : Memory → Nat → Byte → Memory
  | [], a, v => if v = memFill then [] else [(a, v)]
  | c :: m, a, v =>
    if a < c.1 then (if v = memFill then c :: m else (a, v) :: c :: m)
    else if a = c.1 then (if v = memFill then m else (a, v) :: m)
    else c :: Memory.write m a v

/-- Store a list of bytes at ascending addresses from `a` (R30, R100). -/
def Memory.place (m : Memory) (a : Nat) : List Byte → Memory
  | [] => m
  | v :: vs => Memory.place (m.write a v) (a + 1) vs

/-! ### The memory port (R26, R27): addresses are unbounded integers -/

/-- An address inside memory, or AddressFault: never wrapped, never clamped (R27). -/
def checkAddr (a : Int) : Except Cause Nat :=
  if 0 ≤ a ∧ a < (memSize : Int) then .ok a.toNat else .error .address

/-- `MemRead(a, 1)`. -/
def memRead (s : State) (a : Int) : Except Cause Byte :=
  match checkAddr a with
  | .ok k => .ok (s.mem.read k)
  | .error c => .error c

/-- `MemWrite(a, 1, v)`. -/
def memWrite (s : State) (a : Int) (v : Byte) : Except Cause State :=
  match checkAddr a with
  | .ok k => .ok (s.setMem (s.mem.write k v))
  | .error c => .error c

/-- The three fetch reads of R54, made by every step whatever the opcode; `pc` and the
sums are unbounded integers, so nothing wraps (R12, R27). -/
def fetch (s : State) : Except Cause (Byte × Byte × Byte) :=
  match memRead s s.pc with
  | .error c => .error c
  | .ok op =>
    match memRead s (s.pc + 1 : Nat) with
    | .error c => .error c
    | .ok a =>
      match memRead s (s.pc + 2 : Nat) with
      | .error c => .error c
      | .ok b => .ok (op, a, b)

/-! ### Faults -/

/-- Fault entry (R90), from the state before the step: only `run` and `fault` change. There is no handler,
no saved state and no return from a fault (R91). -/
def takeFault (c : Cause) (s : State) : State := { s with run := .halted, fault := c.code }

/-- The end of every instruction's execute part (R56, R59): its effect as a whole, or, if any check raised
a fault, the fault's entry in the state `s` before the step with every write discarded. -/
def settle (s : State) : Except Cause State → Result
  | .ok t => .next t
  | .error c => .next (takeFault c s)

/-! ### Loading (R100, R103) -/

/-- A new run with the byte sequence `program` at addresses 0 and up, the rest of the state as reset leaves
it (R99, R100); none, a load failure, where the sequence is longer than memory (R103, decision D16). -/
def load (program : List Byte) : Option State :=
  if program.length ≤ memSize then some (State.reset.setMem (Memory.place [] 0 program)) else none

end Sys2Proof.Machine
end

