-- ==== Sys2Proof/Machine/Flags.lean ====
section
/-! DEFINITION. The one flag: what CMP computes and what the conditional jumps test (R13). -/

namespace Sys2Proof.Machine

/-- `FL` after comparing `a` and `b`: 1 when all eight bits agree, else 0 (R76). -/
def cmpFlag (a b : Byte) : Bool := decide (a = b)

/-- JEQ's test, `FL = 1` (R80). -/
def jeqTaken (s : State) : Bool := s.fl

/-- JNE's test, `FL = 0` (R81). -/
def jneTaken (s : State) : Bool := !s.fl

end Sys2Proof.Machine
end

