-- ==== Sys2Proof/Machine/Operands.lean ====
section
/-! DEFINITION. The operand forms of spec/30_encoding.md R41: a register operand is checked before the
instruction has any effect (R43, R56). LDI's immediate (R44) is its byte as it stands. -/

namespace Sys2Proof.Machine

/-- `check_reg(k)` (R43, R59): the whole byte is the index; 8 to 255 raises AddressFault, and the index is
neither masked nor reduced. -/
def checkReg (k : Byte) : Except Cause (Fin 8) :=
  if h : k.toNat < 8 then .ok ⟨k.toNat, h⟩ else .error .address

/-- The two register operands of format RR, `opA` checked first (R56, R67). -/
def checkRegs (ra rb : Byte) : Except Cause (Fin 8 × Fin 8) :=
  match checkReg ra, checkReg rb with
  | .ok a, .ok b => .ok (a, b)
  | .error c, _ => .error c
  | _, .error c => .error c

/-- Run the execute part `f` of an instruction with one register operand: formats R, RI and RX. -/
def withReg (r : Byte) (f : Fin 8 → Except Cause State) : Except Cause State :=
  match checkReg r with
  | .ok k => f k
  | .error c => .error c

/-- Run the execute part `f` of an instruction with two register operands: format RR. -/
def withRegs (ra rb : Byte) (f : Fin 8 → Fin 8 → Except Cause State) : Except Cause State :=
  match checkRegs ra rb with
  | .ok (a, b) => f a b
  | .error c => .error c

/-- The operand byte that selects register `k`. -/
def regByte (k : Fin 8) : Byte := BitVec.ofNat 8 k.val

end Sys2Proof.Machine
end

