-- ==== Sys2Proof/Machine/Alu.lean ====
section
/-! DEFINITION. The nine ALU instructions (spec/43_alu.md). Values are unsigned integers; results are
computed exactly and narrowed once (R77). -/

namespace Sys2Proof.Machine

/-! ### The operations on values -/

/-- `(a * b) mod 256` (R68). -/
def aluMul (a b : Byte) : Byte := BitVec.ofNat 8 (a.toNat * b.toNat)

/-- `a AND b`, bit by bit (R69). -/
def aluAnd (a b : Byte) : Byte := a &&& b

/-- `a OR b`, bit by bit (R70). -/
def aluOr (a b : Byte) : Byte := a ||| b

/-- `a XOR b`, bit by bit (R71). -/
def aluXor (a b : Byte) : Byte := a ^^^ b

/-- `255 - a` (R72). -/
def aluNot (a : Byte) : Byte := BitVec.ofNat 8 (255 - a.toNat)

/-- `(a * 2^b) mod 256`, the count being the whole byte (R73, decision D12). -/
def aluShl (a b : Byte) : Byte := BitVec.ofNat 8 (a.toNat * 2 ^ b.toNat)

/-- `a div 2^b`, the count being the whole byte (R74, decision D12). -/
def aluShr (a b : Byte) : Byte := BitVec.ofNat 8 (a.toNat / 2 ^ b.toNat)

/-- `a mod b`, or ArithmeticFault for a zero divisor (R75, R84). -/
def aluMod (a b : Byte) : Except Cause Byte :=
  if b.toNat = 0 then .error .arithmetic else .ok (BitVec.ofNat 8 (a.toNat % b.toNat))

/-! ### The instructions -/

/-- The ALU contract (R67): both indices checked, both values read before anything is written, the result
into the first operand register, `pc` on by 3; `f` may raise a fault of its own. -/
def aluBinary (f : Byte → Byte → Except Cause Byte) (ra rb : Byte) (s : State) : Result :=
  settle s (withRegs ra rb fun a b =>
    match f (s.reg a) (s.reg b) with
    | .error c => .error c
    | .ok v => .ok ((s.setReg a v).advance 3))

/-- MUL (R68). -/
def execMul (ra rb : Byte) (s : State) : Result := aluBinary (fun a b => .ok (aluMul a b)) ra rb s

/-- AND (R69). -/
def execAnd (ra rb : Byte) (s : State) : Result := aluBinary (fun a b => .ok (aluAnd a b)) ra rb s

/-- OR (R70). -/
def execOr (ra rb : Byte) (s : State) : Result := aluBinary (fun a b => .ok (aluOr a b)) ra rb s

/-- XOR (R71). -/
def execXor (ra rb : Byte) (s : State) : Result := aluBinary (fun a b => .ok (aluXor a b)) ra rb s

/-- NOT (R72): the third byte is ignored and not checked, and `pc` still goes on by 3. -/
def execNot (ra _unused : Byte) (s : State) : Result :=
  settle s (withReg ra fun a => .ok ((s.setReg a (aluNot (s.reg a))).advance 3))

/-- SHL (R73). -/
def execShl (ra rb : Byte) (s : State) : Result := aluBinary (fun a b => .ok (aluShl a b)) ra rb s

/-- SHR (R74). -/
def execShr (ra rb : Byte) (s : State) : Result := aluBinary (fun a b => .ok (aluShr a b)) ra rb s

/-- MOD (R75). -/
def execMod (ra rb : Byte) (s : State) : Result := aluBinary aluMod ra rb s

/-- CMP (R76): only the flag is written. -/
def execCmp (ra rb : Byte) (s : State) : Result :=
  settle s (withRegs ra rb fun a b => .ok ((s.setFl (cmpFlag (s.reg a) (s.reg b))).advance 3))

end Sys2Proof.Machine
end

