-- ==== Sys2Proof/Machine/Jump.lean ====
section
/-! DEFINITION. JMP, JEQ and JNE (spec/44_jumps.md): absolute targets from a register. -/

namespace Sys2Proof.Machine

/-- The three jumps' common part (R79 to R81): the index is checked whether or not the jump is taken
(decision D5); taken, `pc` is the register's value zero-extended; not taken, `pc` goes on by 2. -/
def jumpIf (taken : Bool) (r : Byte) (s : State) : Result :=
  settle s (withReg r fun k => .ok (if taken then s.setPc (s.reg k).toNat else s.advance 2))

/-- JMP (R79). -/
def execJmp (r : Byte) (s : State) : Result := jumpIf true r s

/-- JEQ (R80). -/
def execJeq (r : Byte) (s : State) : Result := jumpIf (jeqTaken s) r s

/-- JNE (R81). -/
def execJne (r : Byte) (s : State) : Result := jumpIf (jneTaken s) r s

end Sys2Proof.Machine
end

