-- ==== Sys2Proof/Machine/Stack.lean ====
section
/-! DEFINITION. PUSH and POP (spec/42_stack.md), the only instructions that access data memory (R28). -/

namespace Sys2Proof.Machine

/-- The address PUSH stores to, `x[7] - 1` on unbounded integers (R64). -/
def pushAddress (s : State) : Int := (s.sp.toNat : Int) - 1

/-- PUSH (R64): the decrement, then the store of the register as it is after the decrement. -/
def execPush (r : Byte) (s : State) : Result :=
  settle s (withReg r fun k =>
    match checkAddr (pushAddress s) with
    | .error c => .error c
    | .ok sp' =>
      let s1 := s.setReg Config.spReg (BitVec.ofNat 8 sp')
      match memWrite s1 sp' (s1.reg k) with
      | .error c => .error c
      | .ok s2 => .ok (s2.advance 2))

/-- The stack pointer POP leaves, on unbounded integers (R65): the loaded value plus 1 where the destination
is register 7 itself, else the old stack pointer plus 1. -/
def popPointer (k : Fin 8) (v : Byte) (s : State) : Int :=
  ((if k = Config.spReg then v else s.sp).toNat : Int) + 1

/-- POP (R65): the load, then the increment. -/
def execPop (r : Byte) (s : State) : Result :=
  settle s (withReg r fun k =>
    match memRead s s.sp.toNat with
    | .error c => .error c
    | .ok v =>
      match checkAddr (popPointer k v s) with
      | .error c => .error c
      | .ok sp' => .ok (((s.setReg k v).setReg Config.spReg (BitVec.ofNat 8 sp')).advance 2))

end Sys2Proof.Machine
end

