-- ==== Sys2Proof/Machine/System.lean ====
section
/-! DEFINITION. HLT, LDI and PRN (spec/41_system_and_data.md), and what an unrecognised opcode does (R48). -/

namespace Sys2Proof.Machine

/-- HLT (R60): `pc` keeps the address of the HLT (decision D9). -/
def execHlt (s : State) : Result := settle s (.ok s.halt)

/-- LDI (R61). -/
def execLdi (r imm : Byte) (s : State) : Result :=
  settle s (withReg r fun k => .ok ((s.setReg k imm).advance 3))

/-- PRN (R62). -/
def execPrn (r : Byte) (s : State) : Result :=
  settle s (withReg r fun k => .ok ((s.emit (s.reg k)).advance 2))

/-- An unrecognised opcode (R48): a one-byte no-op, not a fault. -/
def skipUnrecognised (s : State) : Result := settle s (.ok (s.advance 1))

end Sys2Proof.Machine
end

