-- ==== Sys2Proof/Machine/Cycle.lean ====
section
/-! DEFINITION. The fetch-decode-execute cycle of spec/40_execution_cycle.md R59, for every choice of the
open opcode bytes, and the placing of one instruction where the next fetch reads. -/

namespace Sys2Proof.Machine

open Config

/-- Decode (R55) and execute three fetched bytes. -/
def dispatchFetched (o : Opcodes) (op a b : Byte) (s : State) : Result :=
  match decodeFetched o op a b with
  | .instr i => exec i s
  | .unrecognised _ => skipUnrecognised s

/-- One step (R59). A HALTED machine does nothing, for ever (R53, decision D21): its step leaves every field
as it is (log entry 2). -/
def cycle (o : Opcodes) (s : State) : Result :=
  match s.run with
  | .halted => .next s
  | .running =>
    match fetch s with
    | .error c => .next (takeFault c s)
    | .ok (op, a, b) => dispatchFetched o op a b s

/-- Where `placeWord` puts an instruction: at `pc` where three bytes fit there, else at 0, since no
instruction executes from an address above 253 (R54). -/
def placeAddress (s : State) : Nat := if s.pc ≤ 253 then s.pc else 0

/-- `s` with the three bytes of a table word stored where the next step fetches, and RUNNING. -/
def placeWord (s : State) (nbits w : Nat) : State :=
  { s with
    pc := placeAddress s
    run := .running
    mem := s.mem.place (placeAddress s) (tableWordBytes nbits w) }

end Sys2Proof.Machine
end

