-- ==== Sys2Proof/Safety.lean ====
section
/-! DEFINITION. The terms in which statements about the machine are made: its invariant, how a run ends, and
what an instruction leaves unchanged. -/

namespace Sys2Proof.Machine

open Config

/-- What every step keeps: memory in its canonical form, `pc` in the range R12 says is reachable, and a
recorded fault only in a halted machine (R15, R90). -/
structure Inv (s : State) : Prop where
  memCanonical : s.mem.wf
  pcInRange : s.pc ≤ 256
  faultHalts : s.fault ≠ .none → s.run = .halted

/-- The three fetched bytes decode to `i`: the machine is RUNNING, the fetch succeeds, and the decoder reads
`i` (R53 to R55). -/
def Executes (o : Opcodes) (s : State) (i : Instr) : Prop :=
  s.run = .running ∧ ∃ op a b, fetch s = .ok (op, a, b) ∧ decodeFetched o op a b = .instr i

/-- The fetch succeeds and the opcode byte is none of the seventeen (R48). -/
def Skips (o : Opcodes) (s : State) : Prop :=
  s.run = .running ∧ ∃ op a b, fetch s = .ok (op, a, b) ∧ op ∉ o.bytes

/-- Every register but those listed is as before. -/
def RegsKept (s t : State) (changed : List (Fin 8)) : Prop := ∀ k, k ∉ changed → t.reg k = s.reg k

/-- Every byte of memory reads as before. -/
def MemKept (s t : State) : Prop := ∀ a, t.mem.read a = s.mem.read a

/-- Every byte of memory but the one at `a` reads as before. -/
def MemKeptExcept (s t : State) (a : Nat) : Prop := ∀ c, c ≠ a → t.mem.read c = s.mem.read c

/-- The run state and the fault register are as before. -/
def StatusKept (s t : State) : Prop := t.run = s.run ∧ t.fault = s.fault

/-- Only the instruction's own results differ: flag, status and output are as before. -/
def OthersKept (s t : State) : Prop := t.fl = s.fl ∧ StatusKept s t ∧ t.out = s.out

/-- The machine stopped with an AddressFault: what "raise AddressFault" comes to. Only `run` and `fault`
differ from `s` (R90; the spec's decisions D6, D7, D8, log entries 8 and 9). -/
def addressFaulted (s : State) : State := { s with run := .halted, fault := .addr }

/-- The machine stopped with an ArithmeticFault: what "raise ArithmeticFault" comes to (R90, as above). -/
def arithmeticFaulted (s : State) : State := { s with run := .halted, fault := .arith }

/-- A normal end of a run: HALTED with no fault recorded (R8, R106). -/
def EndedNormally (s : State) : Prop := s.run = .halted ∧ s.fault = .none

/-- A run ended by a fatal fault (R8, R106). -/
def EndedByFault (s : State) : Prop := s.run = .halted ∧ s.fault ≠ .none

/-- The new `pc` of an instruction executed without a fault (the last column of R57's table). A
register is named by its index, so for a jump this is meant for a well-formed operand alone. -/
def nextPc (s : State) : Instr → Nat
  | .hlt => s.pc
  | .ldi _ _ => s.pc + 3
  | .prn _ => s.pc + 2
  | .push _ => s.pc + 2
  | .pop _ => s.pc + 2
  | .mul _ _ => s.pc + 3
  | .and _ _ => s.pc + 3
  | .or _ _ => s.pc + 3
  | .xor _ _ => s.pc + 3
  | .not _ _ => s.pc + 3
  | .shl _ _ => s.pc + 3
  | .shr _ _ => s.pc + 3
  | .mod _ _ => s.pc + 3
  | .cmp _ _ => s.pc + 3
  | .jmp r => (s.reg (Fin.ofNat 8 r.toNat)).toNat
  | .jeq r => if s.fl then (s.reg (Fin.ofNat 8 r.toNat)).toNat else s.pc + 2
  | .jne r => if s.fl then s.pc + 2 else (s.reg (Fin.ofNat 8 r.toNat)).toNat

end Sys2Proof.Machine
end

