-- ==== Sys2Proof/Certificates/Slice0/Obligations.lean ====
section
/-! DEFINITION. The statements about the machine, each the form of rules of the spec. Where a clause rests on a
decision the spec marks as its own (D<n>, spec/92_eei_decisions.md) or on a choice of the model, its docstring
says so. Statements with a parameter `o` hold for every value of the fourteen open opcode bytes (R46). -/

open Sys2Proof Sys2Proof.Machine Sys2Proof.Config

/-! ### Reset and loading -/

/-- R20, with the stack pointer the same sentence names: `pc` 0, `FL` 0, RUNNING, register 7 is 255. -/
def Obligations.ResetLeavesSourceValues : Prop :=
  State.reset.pc = 0 ∧ State.reset.fl = false ∧ State.reset.run = .running ∧ State.reset.reg 7 = 255

/-- The rest of reset: registers 0 to 6 are 0 (decision D14 for 1 to 6), memory reads 0 (D15), no fault is
recorded (D7) and nothing has been emitted. -/
def Obligations.ResetLeavesChosenValues : Prop :=
  (∀ k : Fin 8, k ≠ 7 → State.reset.reg k = 0) ∧ (∀ a, State.reset.mem.read a = 0) ∧
    State.reset.fault = .none ∧ State.reset.out = []

/-- R100: a loaded program stands at addresses 0 and up, and the first fetch reads its first byte. -/
def Obligations.LoadPlacesProgramFromZero : Prop :=
  ∀ program : List Byte, program.length ≤ 256 →
    ∃ s, load program = some s ∧ (∀ k v, program[k]? = some v → s.mem.read k = v) ∧ s.pc = 0 ∧
      s.run = .running ∧ ∀ v, program[0]? = some v → ∃ a b, fetch s = .ok (v, a, b)

/-- Loading leaves everything else as reset does, cells past the program reading 0 (D15), and no run begins
exactly where the program is longer than memory (D16). -/
def Obligations.LoadKeepsResetAndRefusesTooLong : Prop :=
  (∀ program s, load program = some s →
      (∀ a, program.length ≤ a → s.mem.read a = 0) ∧ (∀ k, s.reg k = State.reset.reg k) ∧
        s.fl = false ∧ s.fault = .none ∧ s.out = []) ∧
    ∀ program, load program = none ↔ 256 < program.length

/-! ### Registers and memory -/

/-- Every general register holds what was last written to it and no other one moves: none is hard-wired and
register 7 is an ordinary cell (R10, R11). -/
def Obligations.RegisterHoldsLastWrite : Prop :=
  ∀ (s : State) (k : Fin 8) (v : Byte),
    (s.setReg k v).reg k = v ∧ RegsKept s (s.setReg k v) [k] ∧ MemKept s (s.setReg k v) ∧
      (s.setReg k v).pc = s.pc ∧ OthersKept s (s.setReg k v)

/-- R26: a write inside memory makes its cell read as written, leaves every other cell and all other state,
and a read changes nothing (it answers a byte alone). -/
def Obligations.MemoryPortReadsLastWrite : Prop :=
  ∀ (s : State) (a : Nat) (v : Byte), s.mem.wf → a ≤ 255 →
    ∃ t, memWrite s a v = .ok t ∧ memRead t a = .ok v ∧
      (∀ c : Nat, c ≤ 255 → c ≠ a → memRead t c = memRead s c) ∧ t = { s with mem := t.mem }

/-- An access outside 0 to 255 raises AddressFault, never wrapped or clamped, and any other succeeds
(decision D4). -/
def Obligations.AccessOutsideMemoryFaults : Prop :=
  ∀ (s : State) (a : Int) (v : Byte),
    ((a < 0 ∨ 255 < a) → memRead s a = .error .address ∧ memWrite s a v = .error .address) ∧
      (0 ≤ a ∧ a ≤ 255 → (∃ w, memRead s a = .ok w) ∧ ∃ t, memWrite s a v = .ok t)

/-- Canonical memories that read alike everywhere are equal data (log entry 19). -/
def Obligations.CanonicalMemoriesEqualWhenReadAlike : Prop :=
  ∀ m n : Memory, m.wf → n.wf → (∀ a, m.read a = n.read a) → m = n

/-! ### Encoding -/

/-- R45: the three opcode bytes the source gives, whatever the other fourteen are. -/
def Obligations.SourceOpcodesDecode : Prop :=
  ∀ (o : Opcodes) (a b : Byte),
    decodeFetched o 0x82 a b = .instr (.ldi a b) ∧ decodeFetched o 0x47 a b = .instr (.prn a) ∧
      decodeFetched o 0x01 a b = .instr .hlt

/-- Words written out from the encodings of the spec with the default opcode bytes (decision D1). -/
def Obligations.DefaultWordsDecode : Prop :=
  decode defaultOpcodes [0b10000010, 0b00000011, 0b11111111] = .ok (.ldi 3 255) ∧
    decode defaultOpcodes [0b01000101, 0b00000111, 0b00000000] = .ok (.push 7) ∧
    decode defaultOpcodes [0b10100010, 0b00000001, 0b00000010] = .ok (.mul 1 2) ∧
    decode defaultOpcodes [0b01101001, 0b00000010, 0b11111111] = .ok (.not 2 255) ∧
    decode defaultOpcodes [0b01010110, 0b00000100, 0b00000001] = .ok (.jne 4)

/-- Decoding the encoding of any instruction gives it back, with every operand byte, whatever follows it in
memory and whatever legal opcode bytes the machine is built with. -/
def Obligations.DecodeOfEncode : Prop :=
  ∀ (o : Opcodes) (i : Instr) (rest : List Byte), o.Legal → 2 ≤ rest.length →
    decode o (encode o i ++ rest) = .ok i

/-- What decodes to an instruction begins with that instruction's encoding: no operand byte is altered or
dropped. -/
def Obligations.EncodeOfDecode : Prop :=
  ∀ (o : Opcodes) (bytes : List Byte) (i : Instr), decode o bytes = .ok i → encode o i <+: bytes

/-- An opcode byte is unrecognised exactly when it is none of the seventeen, whatever bytes follow it. -/
def Obligations.UnrecognisedExactlyOutsideMap : Prop :=
  ∀ (o : Opcodes) (op a b : Byte), decodeFetched o op a b = .unrecognised op ↔ op ∉ o.bytes

/-! ### The step -/

/-- Where three bytes can be fetched and they decode to `i`, the step of a RUNNING machine is `exec i` and
nothing more: no instruction moves `pc` but by its own meaning. -/
def Obligations.StepRunsDecodedInstruction : Prop :=
  (∀ (o : Opcodes) (s : State) (i : Instr), s.run = .running → s.pc ≤ 253 →
      decode o [s.mem.read s.pc, s.mem.read (s.pc + 1), s.mem.read (s.pc + 2)] = .ok i →
      cycle o s = exec i s) ∧
    ∀ (s : State) (i : Instr), s.run = .running → s.pc ≤ 253 →
      decode defaultOpcodes [s.mem.read s.pc, s.mem.read (s.pc + 1), s.mem.read (s.pc + 2)] = .ok i →
      step s = exec i s

/-- A step that begins with `pc` at 254 or above raises AddressFault whatever memory holds (decision D3). -/
def Obligations.FetchPastTopFaults : Prop :=
  ∀ (o : Opcodes) (s : State), s.run = .running → 254 ≤ s.pc → cycle o s = .next (addressFaulted s)

/-- An unrecognised opcode moves `pc` by 1 and changes nothing else (R48; its optional report, decision D18,
is left out). -/
def Obligations.UnrecognisedOpcodeOnlyAdvances : Prop :=
  ∀ (o : Opcodes) (s : State), s.run = .running → s.pc ≤ 253 → s.mem.read s.pc ∉ o.bytes →
    cycle o s = .next { s with pc := s.pc + 1 }

/-- A HALTED machine does nothing for ever. That its step answers the same state, and does not stop, is the
model's choice (log entry 2). -/
def Obligations.HaltedDoesNothingForEver : Prop :=
  ∀ (s : State) (k : Nat), s.run = .halted → core.run k s = .next s

/-- Every step of every state answers a next state. That a fault does is log entry 17; that a HALTED state, for
which the spec defines no step (R53, R59), does is the model's choice, log entry 2. -/
def Obligations.EveryStepAnswersNextState : Prop :=
  ∀ (o : Opcodes) (s : State), ∃ t, cycle o s = .next t

/-- The invariant is kept by every step from every state that meets it. -/
def Obligations.StepKeepsInvariant : Prop :=
  (∀ (o : Opcodes) (s t : State), Inv s → cycle o s = .next t → Inv t) ∧
    ∀ s t : State, Inv s → step s = .next t → Inv t

/-- The state after reset meets the invariant. -/
def Obligations.ResetMeetsInvariant : Prop := Inv State.reset

/-- In every run of every program, `pc` stays between 0 and 256, memory stays canonical, and a recorded fault
has halted the machine (R12 and R15; decisions D2, D3). -/
def Obligations.EveryRunStaysInRange : Prop :=
  ∀ (program : List Byte) (s t : State) (k : Nat), load program = some s → core.run k s = .next t →
    t.pc ≤ 256 ∧ t.mem.wf ∧ (t.fault ≠ .none → t.run = .halted)

/-! ### Faults and the end of a run -/

/-- Faults are precise: a step that raises one keeps no write of the instruction and leaves `pc` (decisions
D6, D7, D8). -/
def Obligations.FaultEntryIsPrecise : Prop :=
  ∀ (o : Opcodes) (s t : State), s.run = .running → s.fault = .none → cycle o s = .next t →
    t.fault ≠ .none → t = { s with run := .halted, fault := t.fault }

/-- R14: `run` becomes HALTED by executing HLT or by a fatal fault and by nothing else; a HALTED machine is not
changed by a step, so none makes it RUNNING again; reset leaves it RUNNING. -/
def Obligations.HaltedOnlyByHltOrFault : Prop :=
  (∀ (o : Opcodes) (s t : State), s.run = .running → s.fault = .none → cycle o s = .next t →
      (t.run = .halted ↔ Executes o s .hlt ∨ t.fault ≠ .none)) ∧
    (∀ (o : Opcodes) (s t : State), s.run = .halted → cycle o s = .next t → t = s) ∧
    State.reset.run = .running

/-- A run ends normally exactly by a HLT, and by a fault exactly when a fault is recorded (R8, R106). -/
def Obligations.NormalEndExactlyByHlt : Prop :=
  ∀ (o : Opcodes) (s t : State), s.run = .running → s.fault = .none → cycle o s = .next t →
    (EndedNormally t ↔ Executes o s .hlt) ∧ (EndedByFault t ↔ t.fault ≠ .none)

/-- R84: ArithmeticFault is raised exactly by MOD with a zero divisor, and only `run` and `fault` change. -/
def Obligations.ArithmeticFaultExactlyOnModByZero : Prop :=
  ∀ (o : Opcodes) (s t : State), s.run = .running → s.fault = .none → cycle o s = .next t →
    (t.fault = .arith ↔
        ∃ a b : Fin 8, Executes o s (.mod (regByte a) (regByte b)) ∧ (s.reg b).toNat = 0) ∧
      (t.fault = .arith → t = arithmeticFaulted s)

/-- AddressFault is raised exactly by a fetch from 254 and above (D3), a register index above 7 (D5), a PUSH
with the stack pointer at 0 and a POP whose new stack pointer would be 256 (D10, D11); in particular a MOD with a
bad index never reports ArithmeticFault (D20). -/
def Obligations.AddressFaultExactlyWhereListed : Prop :=
  ∀ (o : Opcodes) (s t : State), s.run = .running → s.fault = .none → cycle o s = .next t →
    (t.fault = .addr ↔
        254 ≤ s.pc ∨ (∃ i, Executes o s i ∧ i.wellFormed = false) ∨
          (∃ k : Fin 8, Executes o s (.push (regByte k)) ∧ s.sp.toNat = 0) ∨
          ∃ k : Fin 8, Executes o s (.pop (regByte k)) ∧
            (if k = 7 then s.mem.read s.sp.toNat else s.sp).toNat = 255) ∧
      (t.fault = .addr → t = addressFaulted s)

/-- Every instruction with a register index above 7 raises AddressFault (R86). That JEQ and JNE raise it whether
or not they would jump, and NOT never by its third byte, is decision D5 (log entry 7, unsafe for NOT); that MOD
raises it before it looks at its divisor is D20 (log entry 18). HLT and unrecognised opcodes check nothing. -/
def Obligations.BadRegisterIndexFaults : Prop :=
  (∀ (i : Instr) (s : State), i.wellFormed = false → exec i s = .next (addressFaulted s)) ∧
    (∀ r x : Byte, 7 < r.toNat →
      ∀ i ∈ [Instr.ldi r x, .prn r, .push r, .pop r, .mul r x, .mul x r, .and r x, .and x r, .or r x, .or x r,
          .xor r x, .xor x r, .shl r x, .shl x r, .shr r x, .shr x r, .mod r x, .mod x r, .cmp r x, .cmp x r,
          .not r x, .jmp r, .jeq r, .jne r], i.wellFormed = false) ∧
    (∀ s : State, ∃ t, exec .hlt s = .next t ∧ t.fault = s.fault) ∧
    (∀ (a : Fin 8) (x : Byte) (s : State), ∃ t, exec (.not (regByte a) x) s = .next t ∧ StatusKept s t) ∧
    ∀ (o : Opcodes) (s : State), Skips o s → ∃ t, cycle o s = .next t ∧ StatusKept s t

/-! ### Whole-machine rules -/

/-- R13: CMP sets the flag to the equality of the two registers; no other instruction and no unrecognised
opcode writes it; none but JEQ and JNE reads it, so that changing it changes nothing else of the result;
reset leaves it 0. -/
def Obligations.FlagWrittenByCmpReadByJumps : Prop :=
  (∀ (a b : Fin 8) (s t : State), exec (.cmp (regByte a) (regByte b)) s = .next t →
      (t.fl = true ↔ s.reg a = s.reg b)) ∧
    (∀ (i : Instr) (s t : State), (∀ ra rb, i ≠ .cmp ra rb) → exec i s = .next t → t.fl = s.fl) ∧
    (∀ (i : Instr) (s t : State) (b : Bool), (∀ r, i ≠ .jeq r ∧ i ≠ .jne r) → exec i s = .next t →
      ∃ u, exec i { s with fl := b } = .next u ∧ { u with fl := t.fl } = t) ∧
    (∀ (o : Opcodes) (s t : State) (b : Bool), Skips o s → cycle o s = .next t →
      t.fl = s.fl ∧ cycle o { s with fl := b } = .next { t with fl := b }) ∧
    State.reset.fl = false

/-- The output channel is append-only, one value at each completed PRN and none at any other step (R17, R62;
decisions D17, D23). -/
def Obligations.OutputGrowsOnlyByPrn : Prop :=
  ∀ (o : Opcodes) (s t : State), cycle o s = .next t →
    (t.out = s.out ∧ ∀ k : Fin 8, ¬ Executes o s (.prn (regByte k))) ∨
      ∃ k : Fin 8, Executes o s (.prn (regByte k)) ∧ t.out = s.out ++ [s.reg k]

/-- No step reads the output channel: earlier output only stands before what follows (R17). -/
def Obligations.OutputNeverRead : Prop :=
  ∀ (o : Opcodes) (s t : State) (earlier : List Byte), cycle o s = .next t →
    cycle o { s with out := earlier ++ s.out } = .next { t with out := earlier ++ t.out }

/-- No step stores to memory but a PUSH, and that to the one cell below the old stack pointer (R28, R64). -/
def Obligations.OnlyPushStores : Prop :=
  ∀ (o : Opcodes) (s t : State), s.mem.wf → cycle o s = .next t →
    MemKept s t ∨
      ∃ k : Fin 8, Executes o s (.push (regByte k)) ∧ 0 < s.sp.toNat ∧ MemKeptExcept s t (s.sp.toNat - 1)

/-- The rule of `pc` (R57): an instruction that raises no fault leaves the `pc` of the table (HLT's by
decision D9), and one that raises a fault leaves `pc` (D6). -/
def Obligations.PcFollowsTable : Prop :=
  ∀ (o : Opcodes) (s t : State) (i : Instr), Executes o s i → s.fault = .none → cycle o s = .next t →
    (t.fault = .none → t.pc = nextPc s i) ∧ (t.fault ≠ .none → t.pc = s.pc)

/-- A byte stored by a PUSH is what the very next fetch reads at its address (R37). The byte is the register as it
is after the PUSH: for register 7 the decremented stack pointer, by decision D11 (log entry 10, unsafe for
PUSH R7). -/
def Obligations.StoreSeenByNextFetch : Prop :=
  ∀ (k : Fin 8) (s t : State) (op a b : Byte), s.mem.wf → exec (.push (regByte k)) s = .next t →
    t.fault = s.fault → s.run = .running → t.run = .running → fetch t = .ok (op, a, b) →
    ((t.pc : Int) = pushAddress s → op = t.reg k) ∧
      ((t.pc : Int) + 1 = pushAddress s → a = t.reg k) ∧ ((t.pc : Int) + 2 = pushAddress s → b = t.reg k)

/-! ### System and data movement -/

/-- HLT stops the run and changes nothing else; that `pc` keeps the address of the HLT is decision D9. -/
def Obligations.HltHalts : Prop :=
  ∀ s : State, exec .hlt s = .next { s with run := .halted }

/-- R61: LDI writes the immediate as it stands, into any register; a bad index raises AddressFault. -/
def Obligations.LdiLoadsImmediate : Prop :=
  (∀ (k : Fin 8) (imm : Byte) (s : State),
      ∃ t, exec (.ldi (regByte k) imm) s = .next t ∧ t.reg k = imm ∧ RegsKept s t [k] ∧ t.pc = s.pc + 3 ∧
        MemKept s t ∧ OthersKept s t) ∧
    ∀ (r imm : Byte) (s : State), 7 < r.toNat → exec (.ldi r imm) s = .next (addressFaulted s)

/-- PRN (R62) appends the register's value to the output and changes nothing else but `pc`; a bad index raises
AddressFault and emits nothing. The output as a sequence of values is decision D17. -/
def Obligations.PrnEmitsRegister : Prop :=
  (∀ (k : Fin 8) (s : State),
      ∃ t, exec (.prn (regByte k)) s = .next t ∧ t.out = s.out ++ [s.reg k] ∧ RegsKept s t [] ∧
        t.pc = s.pc + 2 ∧ MemKept s t ∧ t.fl = s.fl ∧ StatusKept s t) ∧
    ∀ (r : Byte) (s : State), 7 < r.toNat → exec (.prn r) s = .next (addressFaulted s)

/-! ### Stack -/

/-- PUSH with room: the stack pointer goes down by 1 and the register, as it is after that (decision D11 for
register 7), is stored there; every other byte of memory and every other register is as before. -/
def Obligations.PushStoresBelowStackPointer : Prop :=
  ∀ (k : Fin 8) (s : State), s.mem.wf → 0 < s.sp.toNat →
    ∃ t, exec (.push (regByte k)) s = .next t ∧ t.sp.toNat = s.sp.toNat - 1 ∧ RegsKept s t [7] ∧
      pushAddress s = ((s.sp.toNat - 1 : Nat) : Int) ∧
      (∀ a : Nat, pushAddress s = a →
        t.mem.read a = (if k = 7 then t.sp else s.reg k) ∧ MemKeptExcept s t a) ∧
      t.pc = s.pc + 2 ∧ OthersKept s t

/-- POP with the new stack pointer inside memory: the byte at the stack pointer goes into the register, then
the stack pointer goes up by 1, for register 7 from the loaded value (decision D11). -/
def Obligations.PopLoadsFromStackPointer : Prop :=
  ∀ (k : Fin 8) (s : State), (if k = 7 then s.mem.read s.sp.toNat else s.sp).toNat < 255 →
    ∃ t, exec (.pop (regByte k)) s = .next t ∧ (k ≠ 7 → t.reg k = s.mem.read s.sp.toNat) ∧
      t.sp.toNat = (if k = 7 then s.mem.read s.sp.toNat else s.sp).toNat + 1 ∧ RegsKept s t [k, 7] ∧
      t.pc = s.pc + 2 ∧ MemKept s t ∧ OthersKept s t

/-- The stack's two edges raise AddressFault and change neither registers nor memory (decision D10; for POP into
register 7 the edge is that of the loaded byte, decision D11). -/
def Obligations.StackEdgesFault : Prop :=
  (∀ (k : Fin 8) (s : State), s.sp.toNat = 0 → exec (.push (regByte k)) s = .next (addressFaulted s)) ∧
    ∀ (k : Fin 8) (s : State), (if k = 7 then s.mem.read s.sp.toNat else s.sp).toNat = 255 →
      exec (.pop (regByte k)) s = .next (addressFaulted s)

/-- PUSH then POP of one register restores every register, the stack pointer included, and changes memory
only at the cell below it, which then holds the pushed value (R66, derived there; D11 for register 7). -/
def Obligations.PushThenPopRestoresRegisters : Prop :=
  ∀ (k : Fin 8) (s : State), s.mem.wf → 0 < s.sp.toNat →
    ∃ t u, exec (.push (regByte k)) s = .next t ∧ exec (.pop (regByte k)) t = .next u ∧ RegsKept s u [] ∧
      MemKeptExcept s u (s.sp.toNat - 1) ∧
      (u.mem.read (s.sp.toNat - 1)).toNat = (if k = 7 then s.sp.toNat - 1 else (s.reg k).toNat) ∧
      u.pc = s.pc + 4 ∧ OthersKept s u

/-! ### ALU -/

/-- R68: MUL leaves the low 8 bits of the product; with one register named twice it squares the old value. -/
def Obligations.MulKeepsLowByte : Prop :=
  (∀ (a b : Fin 8) (s : State),
      ∃ t, exec (.mul (regByte a) (regByte b)) s = .next t ∧
        (t.reg a).toNat = (s.reg a).toNat * (s.reg b).toNat % 256 ∧ RegsKept s t [a] ∧ t.pc = s.pc + 3 ∧
        MemKept s t ∧ OthersKept s t) ∧
    ∀ (ra rb : Byte) (s : State), 7 < ra.toNat ∨ 7 < rb.toNat →
      exec (.mul ra rb) s = .next (addressFaulted s)

/-- R69, R70, R71: AND, OR and XOR bit by bit. -/
def Obligations.BitwiseOperationsByBit : Prop :=
  (∀ (a b : Fin 8) (s : State),
      (∃ t, exec (.and (regByte a) (regByte b)) s = .next t ∧
        (∀ n < 8, (t.reg a).getLsbD n = ((s.reg a).getLsbD n && (s.reg b).getLsbD n)) ∧
        RegsKept s t [a] ∧ t.pc = s.pc + 3 ∧ MemKept s t ∧ OthersKept s t) ∧
      (∃ t, exec (.or (regByte a) (regByte b)) s = .next t ∧
        (∀ n < 8, (t.reg a).getLsbD n = ((s.reg a).getLsbD n || (s.reg b).getLsbD n)) ∧
        RegsKept s t [a] ∧ t.pc = s.pc + 3 ∧ MemKept s t ∧ OthersKept s t) ∧
      ∃ t, exec (.xor (regByte a) (regByte b)) s = .next t ∧
        (∀ n < 8, (t.reg a).getLsbD n = ((s.reg a).getLsbD n != (s.reg b).getLsbD n)) ∧
        RegsKept s t [a] ∧ t.pc = s.pc + 3 ∧ MemKept s t ∧ OthersKept s t) ∧
    ∀ (ra rb : Byte) (s : State), 7 < ra.toNat ∨ 7 < rb.toNat →
      exec (.and ra rb) s = .next (addressFaulted s) ∧ exec (.or ra rb) s = .next (addressFaulted s) ∧
        exec (.xor ra rb) s = .next (addressFaulted s)

/-- NOT complements the register and moves `pc` by 3, whatever its third byte is (decision D5: that byte is not
checked); a bad first index raises AddressFault. -/
def Obligations.NotComplements : Prop :=
  (∀ (a : Fin 8) (unused : Byte) (s : State),
      ∃ t, exec (.not (regByte a) unused) s = .next t ∧ (t.reg a).toNat = 255 - (s.reg a).toNat ∧
        RegsKept s t [a] ∧ t.pc = s.pc + 3 ∧ MemKept s t ∧ OthersKept s t) ∧
    ∀ (ra unused : Byte) (s : State), 7 < ra.toNat → exec (.not ra unused) s = .next (addressFaulted s)

/-- NOT twice on one register restores it (the source's property in R72). That both complete whatever their
third bytes, 8 to 255 included, is decision D5 (log entry 7, unsafe for NOT). -/
def Obligations.NotTwiceRestores : Prop :=
  ∀ (a : Fin 8) (x y : Byte) (s : State),
    ∃ t u, exec (.not (regByte a) x) s = .next t ∧ exec (.not (regByte a) y) t = .next u ∧
      RegsKept s u [] ∧ u.pc = s.pc + 6

/-- SHL and SHR by the whole byte of the second register; that counts of 8 and more give 0, and that the right
shift is logical, is decision D12. -/
def Obligations.ShiftsByWholeCount : Prop :=
  (∀ (a b : Fin 8) (s : State),
      (∃ t, exec (.shl (regByte a) (regByte b)) s = .next t ∧
        (t.reg a).toNat = (s.reg a).toNat * 2 ^ (s.reg b).toNat % 256 ∧
        (8 ≤ (s.reg b).toNat → (t.reg a).toNat = 0) ∧
        RegsKept s t [a] ∧ t.pc = s.pc + 3 ∧ MemKept s t ∧ OthersKept s t) ∧
      ∃ t, exec (.shr (regByte a) (regByte b)) s = .next t ∧
        (t.reg a).toNat = (s.reg a).toNat / 2 ^ (s.reg b).toNat ∧
        (8 ≤ (s.reg b).toNat → (t.reg a).toNat = 0) ∧
        RegsKept s t [a] ∧ t.pc = s.pc + 3 ∧ MemKept s t ∧ OthersKept s t) ∧
    ∀ (ra rb : Byte) (s : State), 7 < ra.toNat ∨ 7 < rb.toNat →
      exec (.shl ra rb) s = .next (addressFaulted s) ∧ exec (.shr ra rb) s = .next (addressFaulted s)

/-- MOD leaves the remainder below the divisor (decision D13); a zero divisor raises ArithmeticFault and a bad
index AddressFault, checked first (D20). -/
def Obligations.ModLeavesRemainder : Prop :=
  (∀ (a b : Fin 8) (s : State), (s.reg b).toNat ≠ 0 →
      ∃ t, exec (.mod (regByte a) (regByte b)) s = .next t ∧
        (t.reg a).toNat = (s.reg a).toNat % (s.reg b).toNat ∧ (t.reg a).toNat < (s.reg b).toNat ∧
        RegsKept s t [a] ∧ t.pc = s.pc + 3 ∧ MemKept s t ∧ OthersKept s t) ∧
    (∀ (a b : Fin 8) (s : State), (s.reg b).toNat = 0 →
      exec (.mod (regByte a) (regByte b)) s = .next (arithmeticFaulted s)) ∧
    ∀ (ra rb : Byte) (s : State), 7 < ra.toNat ∨ 7 < rb.toNat →
      exec (.mod ra rb) s = .next (addressFaulted s)

/-- R76: CMP sets the flag exactly when the two registers hold the same 8 bits, and writes no register. -/
def Obligations.CmpSetsFlagOnEquality : Prop :=
  (∀ (a b : Fin 8) (s : State),
      ∃ t, exec (.cmp (regByte a) (regByte b)) s = .next t ∧
        (t.fl = true ↔ (s.reg a).toNat = (s.reg b).toNat) ∧ RegsKept s t [] ∧ t.pc = s.pc + 3 ∧
        MemKept s t ∧ StatusKept s t ∧ t.out = s.out) ∧
    ∀ (ra rb : Byte) (s : State), 7 < ra.toNat ∨ 7 < rb.toNat →
      exec (.cmp ra rb) s = .next (addressFaulted s)

/-- The ALU contract (R67): each of the eight operations that completes writes its first operand register and
`pc` alone, and CMP the flag and `pc` alone. -/
def Obligations.AluWritesFirstOperandOnly : Prop :=
  (∀ (a : Fin 8) (rb : Byte) (s t : State) (i : Instr),
      i ∈ [Instr.mul (regByte a) rb, .and (regByte a) rb, .or (regByte a) rb, .xor (regByte a) rb,
          .not (regByte a) rb, .shl (regByte a) rb, .shr (regByte a) rb, .mod (regByte a) rb] →
      s.fault = .none → exec i s = .next t → t.fault = .none →
      RegsKept s t [a] ∧ t.pc = s.pc + 3 ∧ MemKept s t ∧ OthersKept s t) ∧
    ∀ (ra rb : Byte) (s t : State), s.fault = .none → exec (.cmp ra rb) s = .next t → t.fault = .none →
      RegsKept s t [] ∧ t.pc = s.pc + 3 ∧ MemKept s t ∧ StatusKept s t ∧ t.out = s.out

/-! ### Jumps -/

/-- R79: JMP sets `pc` to the register's value and changes nothing else, whatever the flag. -/
def Obligations.JmpJumpsToRegister : Prop :=
  (∀ (k : Fin 8) (s : State), exec (.jmp (regByte k)) s = .next { s with pc := (s.reg k).toNat }) ∧
    ∀ (r : Byte) (s : State), 7 < r.toNat → exec (.jmp r) s = .next (addressFaulted s)

/-- JEQ jumps when `FL` is 1 and JNE when it is 0, and each goes on by 2 otherwise; nothing else changes. A bad
index raises AddressFault whether or not the jump would be taken (decision D5). -/
def Obligations.ConditionalJumpsTestFlag : Prop :=
  (∀ (k : Fin 8) (s : State),
      exec (.jeq (regByte k)) s =
          .next { s with pc := if s.fl = true then (s.reg k).toNat else s.pc + 2 } ∧
        exec (.jne (regByte k)) s =
          .next { s with pc := if s.fl = false then (s.reg k).toNat else s.pc + 2 }) ∧
    ∀ (r : Byte) (s : State), 7 < r.toNat →
      exec (.jeq r) s = .next (addressFaulted s) ∧ exec (.jne r) s = .next (addressFaulted s)
end

