-- ==== Sys2Proof/Laws/Decode.lean ====
section
/-! SUPPORT. Decoding: what the opcode map answers, by its rows. -/

namespace Sys2Proof

open Config

/-- A row found first in a list with no opcode twice. -/
theorem decodeRows_of_mem {rows : List OpcodeRow} (distinct : (rows.map OpcodeRow.opcode).Nodup)
    {row : OpcodeRow} (h : row ∈ rows) (a b : Byte) :
    decodeRows row.opcode a b rows = .instr (row.build a b) := by
  induction rows with
  | nil => cases h
  | cons q rows ih =>
    rw [List.map_cons, List.nodup_cons] at distinct
    rw [decodeRows]
    obtain rfl | h := List.mem_cons.1 h
    · rw [if_pos rfl]
    · have other : row.opcode ≠ q.opcode := fun e => distinct.1 (e ▸ List.mem_map_of_mem h)
      rw [if_neg other, ih distinct.2 h]

/-- Decoding selects a row by its whole opcode byte, or no row has that byte. -/
theorem decodeRows_cases (op a b : Byte) (rows : List OpcodeRow) :
    (∃ row ∈ rows, op = row.opcode ∧ decodeRows op a b rows = .instr (row.build a b)) ∨
      op ∉ rows.map OpcodeRow.opcode ∧ decodeRows op a b rows = .unrecognised op := by
  induction rows with
  | nil => exact .inr ⟨List.not_mem_nil, rfl⟩
  | cons q rows ih =>
    rw [decodeRows]
    by_cases e : op = q.opcode
    · exact .inl ⟨q, List.mem_cons_self, e, if_pos e⟩
    · rw [if_neg e]
      obtain ⟨row, h, hop, hd⟩ | ⟨h, hd⟩ := ih
      · exact .inl ⟨row, List.mem_cons_of_mem _ h, hop, hd⟩
      · refine .inr ⟨?_, hd⟩
        rw [List.map_cons, List.mem_cons, not_or]
        exact ⟨e, h⟩

theorem opcodeRows_opcodes (o : Opcodes) : (opcodeRows o).map OpcodeRow.opcode = o.bytes := rfl

/-- With legal opcode bytes, a row's opcode decodes to that row's instruction. -/
theorem decodeFetched_of_mem {o : Opcodes} (legal : o.Legal) {row : OpcodeRow} (h : row ∈ opcodeRows o)
    (a b : Byte) : decodeFetched o row.opcode a b = .instr (row.build a b) :=
  decodeRows_of_mem (by rw [opcodeRows_opcodes]; exact legal) h a b

/-- Every opcode byte is a row's, or is none of the seventeen and unrecognised. -/
theorem decodeFetched_cases (o : Opcodes) (op a b : Byte) :
    (∃ row ∈ opcodeRows o, op = row.opcode ∧ decodeFetched o op a b = .instr (row.build a b)) ∨
      op ∉ o.bytes ∧ decodeFetched o op a b = .unrecognised op := by
  rw [← opcodeRows_opcodes]
  exact decodeRows_cases op a b (opcodeRows o)

/-- Every instruction is what its row makes of the two operand bytes of its encoding. -/
theorem encode_row (o : Opcodes) (i : Instr) (rest : List Byte) (long : 2 ≤ rest.length) :
    ∃ row ∈ opcodeRows o, ∃ a b tail, encode o i ++ rest = row.opcode :: a :: b :: tail ∧ row.build a b = i := by
  obtain ⟨x, y, tail, rfl⟩ : ∃ x y tail, rest = x :: y :: tail := by
    match rest, long with
    | x :: y :: tail, _ => exact ⟨x, y, tail, rfl⟩
  cases i <;> simp [opcodeRows, encode]

end Sys2Proof
end

