-- ==== Sys2Proof/Laws/State.lean ====
section
/-! SUPPORT. State, update by update: what each field is after each update of Machine/Ops.lean, and registers
read back after a write. -/

namespace Sys2Proof.Machine

/-! ### The register file -/

/-- A register reads as last written, every other one as before (R10). -/
@[simp] theorem RegFile.get_set (r : RegFile) (k j : Fin 8) (v : Byte) :
    (r.set k v).get j = if j = k then v else r.get j := by
  fin_cases k <;> fin_cases j <;> rfl

/-- Register files that read alike are equal. -/
theorem RegFile.ext_get {r r' : RegFile} (h : ∀ k, r.get k = r'.get k) : r = r' := by
  cases r; cases r'
  rw [RegFile.mk.injEq]
  exact ⟨h 0, h 1, h 2, h 3, h 4, h 5, h 6, h 7⟩

/-- Writing a register the value it holds changes nothing. -/
@[simp] theorem RegFile.set_get (r : RegFile) (k : Fin 8) : r.set k (r.get k) = r := by
  fin_cases k <;> rfl

/-! ### Fields after updates -/

@[simp] theorem State.setReg_regs (s : State) (k : Fin 8) (v : Byte) : (s.setReg k v).regs = s.regs.set k v := rfl
@[simp] theorem State.setReg_pc (s : State) (k : Fin 8) (v : Byte) : (s.setReg k v).pc = s.pc := rfl
@[simp] theorem State.setReg_fl (s : State) (k : Fin 8) (v : Byte) : (s.setReg k v).fl = s.fl := rfl
@[simp] theorem State.setReg_run (s : State) (k : Fin 8) (v : Byte) : (s.setReg k v).run = s.run := rfl
@[simp] theorem State.setReg_fault (s : State) (k : Fin 8) (v : Byte) : (s.setReg k v).fault = s.fault := rfl
@[simp] theorem State.setReg_mem (s : State) (k : Fin 8) (v : Byte) : (s.setReg k v).mem = s.mem := rfl
@[simp] theorem State.setReg_out (s : State) (k : Fin 8) (v : Byte) : (s.setReg k v).out = s.out := rfl

@[simp] theorem State.setPc_regs (s : State) (n : Nat) : (s.setPc n).regs = s.regs := rfl
@[simp] theorem State.setPc_pc (s : State) (n : Nat) : (s.setPc n).pc = n := rfl
@[simp] theorem State.setPc_fl (s : State) (n : Nat) : (s.setPc n).fl = s.fl := rfl
@[simp] theorem State.setPc_run (s : State) (n : Nat) : (s.setPc n).run = s.run := rfl
@[simp] theorem State.setPc_fault (s : State) (n : Nat) : (s.setPc n).fault = s.fault := rfl
@[simp] theorem State.setPc_mem (s : State) (n : Nat) : (s.setPc n).mem = s.mem := rfl
@[simp] theorem State.setPc_out (s : State) (n : Nat) : (s.setPc n).out = s.out := rfl
@[simp] theorem State.setPc_reg (s : State) (n : Nat) (j : Fin 8) : (s.setPc n).reg j = s.reg j := rfl

@[simp] theorem State.advance_regs (s : State) (n : Nat) : (s.advance n).regs = s.regs := rfl
@[simp] theorem State.advance_pc (s : State) (n : Nat) : (s.advance n).pc = s.pc + n := rfl
@[simp] theorem State.advance_fl (s : State) (n : Nat) : (s.advance n).fl = s.fl := rfl
@[simp] theorem State.advance_run (s : State) (n : Nat) : (s.advance n).run = s.run := rfl
@[simp] theorem State.advance_fault (s : State) (n : Nat) : (s.advance n).fault = s.fault := rfl
@[simp] theorem State.advance_mem (s : State) (n : Nat) : (s.advance n).mem = s.mem := rfl
@[simp] theorem State.advance_out (s : State) (n : Nat) : (s.advance n).out = s.out := rfl
@[simp] theorem State.advance_reg (s : State) (n : Nat) (j : Fin 8) : (s.advance n).reg j = s.reg j := rfl

@[simp] theorem State.setFl_regs (s : State) (b : Bool) : (s.setFl b).regs = s.regs := rfl
@[simp] theorem State.setFl_pc (s : State) (b : Bool) : (s.setFl b).pc = s.pc := rfl
@[simp] theorem State.setFl_fl (s : State) (b : Bool) : (s.setFl b).fl = b := rfl
@[simp] theorem State.setFl_run (s : State) (b : Bool) : (s.setFl b).run = s.run := rfl
@[simp] theorem State.setFl_fault (s : State) (b : Bool) : (s.setFl b).fault = s.fault := rfl
@[simp] theorem State.setFl_mem (s : State) (b : Bool) : (s.setFl b).mem = s.mem := rfl
@[simp] theorem State.setFl_out (s : State) (b : Bool) : (s.setFl b).out = s.out := rfl
@[simp] theorem State.setFl_reg (s : State) (b : Bool) (j : Fin 8) : (s.setFl b).reg j = s.reg j := rfl

@[simp] theorem State.halt_regs (s : State) : s.halt.regs = s.regs := rfl
@[simp] theorem State.halt_pc (s : State) : s.halt.pc = s.pc := rfl
@[simp] theorem State.halt_fl (s : State) : s.halt.fl = s.fl := rfl
@[simp] theorem State.halt_run (s : State) : s.halt.run = .halted := rfl
@[simp] theorem State.halt_fault (s : State) : s.halt.fault = s.fault := rfl
@[simp] theorem State.halt_mem (s : State) : s.halt.mem = s.mem := rfl
@[simp] theorem State.halt_out (s : State) : s.halt.out = s.out := rfl
@[simp] theorem State.halt_reg (s : State) (j : Fin 8) : s.halt.reg j = s.reg j := rfl

@[simp] theorem State.emit_regs (s : State) (v : Byte) : (s.emit v).regs = s.regs := rfl
@[simp] theorem State.emit_pc (s : State) (v : Byte) : (s.emit v).pc = s.pc := rfl
@[simp] theorem State.emit_fl (s : State) (v : Byte) : (s.emit v).fl = s.fl := rfl
@[simp] theorem State.emit_run (s : State) (v : Byte) : (s.emit v).run = s.run := rfl
@[simp] theorem State.emit_fault (s : State) (v : Byte) : (s.emit v).fault = s.fault := rfl
@[simp] theorem State.emit_mem (s : State) (v : Byte) : (s.emit v).mem = s.mem := rfl
@[simp] theorem State.emit_out (s : State) (v : Byte) : (s.emit v).out = s.out ++ [v] := rfl
@[simp] theorem State.emit_reg (s : State) (v : Byte) (j : Fin 8) : (s.emit v).reg j = s.reg j := rfl

@[simp] theorem State.setMem_regs (s : State) (m : Memory) : (s.setMem m).regs = s.regs := rfl
@[simp] theorem State.setMem_pc (s : State) (m : Memory) : (s.setMem m).pc = s.pc := rfl
@[simp] theorem State.setMem_fl (s : State) (m : Memory) : (s.setMem m).fl = s.fl := rfl
@[simp] theorem State.setMem_run (s : State) (m : Memory) : (s.setMem m).run = s.run := rfl
@[simp] theorem State.setMem_fault (s : State) (m : Memory) : (s.setMem m).fault = s.fault := rfl
@[simp] theorem State.setMem_mem (s : State) (m : Memory) : (s.setMem m).mem = m := rfl
@[simp] theorem State.setMem_out (s : State) (m : Memory) : (s.setMem m).out = s.out := rfl
@[simp] theorem State.setMem_reg (s : State) (m : Memory) (j : Fin 8) : (s.setMem m).reg j = s.reg j := rfl

@[simp] theorem State.setReg_reg (s : State) (k j : Fin 8) (v : Byte) :
    (s.setReg k v).reg j = if j = k then v else s.reg j :=
  RegFile.get_set s.regs k j v

/-! ### Fault entry (R90) -/

@[simp] theorem takeFault_regs (c : Cause) (s : State) : (takeFault c s).regs = s.regs := rfl
@[simp] theorem takeFault_pc (c : Cause) (s : State) : (takeFault c s).pc = s.pc := rfl
@[simp] theorem takeFault_fl (c : Cause) (s : State) : (takeFault c s).fl = s.fl := rfl
@[simp] theorem takeFault_run (c : Cause) (s : State) : (takeFault c s).run = .halted := rfl
@[simp] theorem takeFault_fault (c : Cause) (s : State) : (takeFault c s).fault = c.code := rfl
@[simp] theorem takeFault_mem (c : Cause) (s : State) : (takeFault c s).mem = s.mem := rfl
@[simp] theorem takeFault_out (c : Cause) (s : State) : (takeFault c s).out = s.out := rfl
@[simp] theorem takeFault_reg (c : Cause) (s : State) (j : Fin 8) : (takeFault c s).reg j = s.reg j := rfl

/-- Every cause has a code that is not `FAULT_NONE`. -/
theorem Cause.code_ne_none (c : Cause) : c.code ≠ .none := by cases c <;> decide

/-- States with the same registers, read one by one, and the same other fields are equal. -/
theorem State.ext_reg {s t : State} (hr : ∀ k, s.reg k = t.reg k) (hp : s.pc = t.pc) (hl : s.fl = t.fl)
    (hu : s.run = t.run) (hf : s.fault = t.fault) (hm : s.mem = t.mem) (ho : s.out = t.out) : s = t := by
  cases s; cases t
  obtain rfl := RegFile.ext_get hr
  simp_all

end Sys2Proof.Machine
end

