-- ==== Sys2Proof/Laws/Memory.lean ====
section
/-! SUPPORT. Memory as a canonical list of cells: a read after a write, and that every memory operation
keeps the canonical form. -/

namespace Sys2Proof.Machine

open Config

theorem Memory.nil_wf : Memory.wf [] := by simp [Memory.wf]

@[simp] theorem Memory.read_nil (a : Nat) : Memory.read [] a = memFill := rfl

@[simp] theorem Memory.read_cons (c : Host.Cell) (m : Memory) (a : Nat) :
    Memory.read (c :: m) a = if a = c.1 then c.2 else Memory.read m a := rfl

/-- A canonical memory is a head cell inside memory, below every cell of a canonical rest. -/
theorem Memory.wf_cons (c : Host.Cell) (m : Memory) :
    Memory.wf (c :: m) ↔ (∀ d ∈ m, c.1 < d.1) ∧ (c.1 < memSize ∧ c.2 ≠ memFill) ∧ Memory.wf m := by
  simp only [Memory.wf, List.pairwise_cons, List.forall_mem_cons]
  tauto

/-- An address below every listed cell reads as the fill value. -/
theorem Memory.read_below {m : Memory} {a : Nat} (h : ∀ d ∈ m, a < d.1) : m.read a = memFill := by
  induction m with
  | nil => rfl
  | cons c m ih =>
    rw [List.forall_mem_cons] at h
    simp [ih h.2, h.1.ne]

/-- Every cell a store leaves was there before or is the one stored. -/
theorem Memory.mem_write {m : Memory} {a : Nat} {v : Byte} {d : Host.Cell} (hd : d ∈ m.write a v) :
    d ∈ m ∨ d = (a, v) ∧ v ≠ memFill := by
  induction m with
  | nil => rw [Memory.write] at hd; split at hd <;> simp_all
  | cons c m ih =>
    rw [Memory.write] at hd
    split_ifs at hd <;> simp only [List.mem_cons] at hd ⊢ <;> tauto

/-- A store keeps the canonical form. -/
theorem Memory.write_wf {m : Memory} (h : m.wf) {a : Nat} (ha : a < memSize) (v : Byte) : (m.write a v).wf := by
  induction m with
  | nil =>
    rw [Memory.write]
    split
    · exact h
    · exact (Memory.wf_cons _ _).2 ⟨by simp, ⟨ha, by assumption⟩, h⟩
  | cons c m ih =>
    obtain ⟨hlt, hc, hm⟩ := (Memory.wf_cons c m).1 h
    rw [Memory.write]
    split_ifs with h1 h2 h3 h4
    · exact h
    · refine (Memory.wf_cons _ _).2 ⟨?_, ⟨ha, h2⟩, h⟩
      exact List.forall_mem_cons.2 ⟨h1, fun d hd => h1.trans (hlt d hd)⟩
    · exact hm
    · exact (Memory.wf_cons _ _).2 ⟨fun d hd => h3 ▸ hlt d hd, ⟨ha, h4⟩, hm⟩
    · refine (Memory.wf_cons _ _).2 ⟨fun d hd => ?_, hc, ih hm⟩
      obtain hd | ⟨rfl, -⟩ := Memory.mem_write hd
      · exact hlt d hd
      · change c.1 < a; omega

/-- A read after a store: the stored byte at its address, every other address as before (R26). -/
theorem Memory.read_write {m : Memory} (h : m.wf) (a : Nat) (v : Byte) (b : Nat) :
    (Memory.write m a v).read b = if b = a then v else Memory.read m b := by
  induction m with
  | nil => rw [Memory.write]; split <;> simp_all
  | cons c m ih =>
    obtain ⟨hlt, -, hm⟩ := (Memory.wf_cons c m).1 h
    have at_head : Memory.read m c.1 = memFill := Memory.read_below hlt
    by_cases below : a < c.1
    · have under : b = a → Memory.read (c :: m) b = memFill := fun hb =>
        Memory.read_below (List.forall_mem_cons.2 ⟨by omega, fun d hd => by have := hlt d hd; omega⟩)
      by_cases fill : v = memFill
      · by_cases hb : b = a
        · rw [Memory.write, if_pos below, if_pos fill, under hb, if_pos hb, fill]
        · rw [Memory.write, if_pos below, if_pos fill, if_neg hb]
      · rw [Memory.write, if_pos below, if_neg fill, Memory.read_cons]
    · by_cases head : a = c.1
      · by_cases hb : b = c.1 <;> by_cases fill : v = memFill <;> simp [Memory.write, *]
      · by_cases hb : b = c.1
        · simp [Memory.write, below, head, hb, Ne.symm head]
        · simp [Memory.write, below, head, hb, ih hm]

/-- Placing bytes that fit keeps the canonical form. -/
theorem Memory.place_wf {m : Memory} (h : m.wf) (bytes : List Byte) {a : Nat}
    (fits : a + bytes.length ≤ memSize) : (Memory.place m a bytes).wf := by
  induction bytes generalizing m a with
  | nil => exact h
  | cons v vs ih =>
    rw [List.length_cons] at fits
    exact ih (Memory.write_wf h (by omega) v) (by omega)

/-- Reading where bytes were placed: the byte of that place, every other address as before (R100). -/
theorem Memory.read_place {m : Memory} (h : m.wf) (bytes : List Byte) {a : Nat}
    (fits : a + bytes.length ≤ memSize) (b : Nat) :
    (Memory.place m a bytes).read b =
      if a ≤ b then (bytes[b - a]?).getD (Memory.read m b) else Memory.read m b := by
  induction bytes generalizing m a with
  | nil => simp [Memory.place]
  | cons v vs ih =>
    rw [List.length_cons] at fits
    rw [Memory.place, ih (Memory.write_wf h (by omega) v) (by omega), Memory.read_write h]
    obtain hb | rfl | hb := lt_trichotomy b a
    · simp [show ¬ a + 1 ≤ b by omega, show ¬ a ≤ b by omega, hb.ne]
    · simp
    · obtain ⟨d, rfl⟩ : ∃ d, b = a + 1 + d := ⟨b - (a + 1), by omega⟩
      simp [show a + 1 + d - a = d + 1 by omega, show a ≤ a + 1 + d by omega,
        show a + 1 + d ≠ a by omega]

end Sys2Proof.Machine
end

