-- ==== Sys2Proof/Laws/Ops.lean ====
section
/-! SUPPORT. Operations: for each shared operation, everything it can do. -/

namespace Sys2Proof.Machine

open Config

/-! ### The end of an instruction (R56, R90) -/

@[simp] theorem settle_ok (s t : State) : settle s (.ok t) = .next t := rfl

@[simp] theorem settle_error (s : State) (c : Cause) : settle s (.error c) = .next (takeFault c s) := rfl

/-- An instruction ends in its whole effect or in the entry of the fault it raised, and in nothing else. -/
theorem settle_cases {s t : State} {e : Except Cause State} (h : settle s e = .next t) :
    e = .ok t ∨ ∃ c, e = .error c ∧ t = takeFault c s := by
  cases e with
  | ok u => exact .inl (by simpa [settle] using h)
  | error c => exact .inr ⟨c, rfl, by simpa [settle] using h.symm⟩

/-! ### Addresses and the memory port (R26, R27) -/

theorem checkAddr_inside {k : Nat} (h : k < 256) : checkAddr k = .ok k := by
  rw [checkAddr, if_pos (by simp [memSize]; omega)]; rfl

theorem checkAddr_outside {a : Int} (h : a < 0 ∨ 256 ≤ a) : checkAddr a = .error .address := by
  rw [checkAddr, if_neg (by simp [memSize]; omega)]

/-- An address is a cell's or raises AddressFault. -/
theorem checkAddr_cases (a : Int) :
    (∃ k : Nat, k < 256 ∧ a = k ∧ checkAddr a = .ok k) ∨
      (a < 0 ∨ 256 ≤ a) ∧ checkAddr a = .error .address := by
  by_cases h : a < 0 ∨ 256 ≤ a
  · exact .inr ⟨h, checkAddr_outside h⟩
  · obtain ⟨k, rfl⟩ : ∃ k : Nat, a = k := ⟨a.toNat, by omega⟩
    exact .inl ⟨k, by omega, rfl, checkAddr_inside (by omega)⟩

theorem memRead_inside (s : State) {k : Nat} (h : k < 256) : memRead s k = .ok (s.mem.read k) := by
  rw [memRead, checkAddr_inside h]

theorem memRead_outside (s : State) {a : Int} (h : a < 0 ∨ 256 ≤ a) : memRead s a = .error .address := by
  rw [memRead, checkAddr_outside h]

/-- A read answers a byte or raises AddressFault. -/
theorem memRead_cases (s : State) (a : Int) :
    (∃ v, memRead s a = .ok v) ∨ memRead s a = .error .address := by
  obtain ⟨k, -, -, h⟩ | ⟨-, h⟩ := checkAddr_cases a
  · exact .inl ⟨s.mem.read k, by rw [memRead, h]⟩
  · exact .inr (by rw [memRead, h])

theorem memWrite_inside (s : State) {k : Nat} (h : k < 256) (v : Byte) :
    memWrite s k v = .ok (s.setMem (s.mem.write k v)) := by
  rw [memWrite, checkAddr_inside h]

theorem memWrite_outside (s : State) {a : Int} (h : a < 0 ∨ 256 ≤ a) (v : Byte) :
    memWrite s a v = .error .address := by
  rw [memWrite, checkAddr_outside h]

/-! ### Fetch (R54) -/

theorem fetch_inside {s : State} (h : s.pc ≤ 253) :
    fetch s = .ok (s.mem.read s.pc, s.mem.read (s.pc + 1), s.mem.read (s.pc + 2)) := by
  have h0 := memRead_inside s (show s.pc < 256 by omega)
  have h1 := memRead_inside s (show s.pc + 1 < 256 by omega)
  have h2 := memRead_inside s (show s.pc + 2 < 256 by omega)
  unfold fetch
  simp only [h0]
  simp only [h1]
  simp only [h2]

theorem fetch_outside {s : State} (h : 254 ≤ s.pc) : fetch s = .error .address := by
  have h2 : memRead s (s.pc + 2 : Nat) = .error .address := memRead_outside s (by omega)
  unfold fetch
  simp only [h2]
  obtain ⟨v, h0⟩ | h0 := memRead_cases s (s.pc : Nat) <;> simp only [h0]
  obtain ⟨v, h1⟩ | h1 := memRead_cases s (s.pc + 1 : Nat) <;> simp only [h1]

/-- The fetch of three bytes succeeds or raises AddressFault, by `pc` alone. -/
theorem fetch_cases (s : State) :
    s.pc ≤ 253 ∧ fetch s = .ok (s.mem.read s.pc, s.mem.read (s.pc + 1), s.mem.read (s.pc + 2)) ∨
      254 ≤ s.pc ∧ fetch s = .error .address := by
  by_cases h : s.pc ≤ 253
  · exact .inl ⟨h, fetch_inside h⟩
  · exact .inr ⟨by omega, fetch_outside (by omega)⟩

/-- A fetch depends on `pc` and memory alone (R18, R55). -/
theorem fetch_congr {s t : State} (hp : t.pc = s.pc) (hm : t.mem = s.mem) : fetch t = fetch s := by
  by_cases h : s.pc ≤ 253
  · rw [fetch_inside h, fetch_inside (hp ▸ h), hp, hm]
  · rw [fetch_outside (by omega), fetch_outside (by omega)]

/-! ### Register operands (R43) -/

theorem regByte_toNat (k : Fin 8) : (regByte k).toNat = k.val := by revert k; decide

/-- Different registers have different operand bytes. -/
@[simp] theorem regByte_inj (k j : Fin 8) : regByte k = regByte j ↔ k = j := by revert k j; decide

@[simp] theorem checkReg_regByte (k : Fin 8) : checkReg (regByte k) = .ok k := by revert k; decide

theorem checkReg_bad {r : Byte} (h : 7 < r.toNat) : checkReg r = .error .address := by
  rw [checkReg, dif_neg (by omega)]

/-- A register operand byte selects a register or raises AddressFault. -/
theorem checkReg_cases (r : Byte) :
    (∃ k, r = regByte k) ∨ 7 < r.toNat ∧ checkReg r = .error .address := by
  by_cases h : r.toNat < 8
  · refine .inl ⟨⟨r.toNat, h⟩, ?_⟩
    simp [regByte]
  · exact .inr ⟨by omega, checkReg_bad (by omega)⟩

@[simp] theorem withReg_regByte (k : Fin 8) (f : Fin 8 → Except Cause State) :
    withReg (regByte k) f = f k := by
  simp [withReg]

theorem withReg_bad {r : Byte} (h : 7 < r.toNat) (f : Fin 8 → Except Cause State) :
    withReg r f = .error .address := by
  rw [withReg, checkReg_bad h]

@[simp] theorem withRegs_regByte (a b : Fin 8) (f : Fin 8 → Fin 8 → Except Cause State) :
    withRegs (regByte a) (regByte b) f = f a b := by
  simp [withRegs, checkRegs]

theorem withRegs_bad {ra rb : Byte} (h : 7 < ra.toNat ∨ 7 < rb.toNat) (f : Fin 8 → Fin 8 → Except Cause State) :
    withRegs ra rb f = .error .address := by
  obtain ⟨a, rfl⟩ | ⟨-, ha⟩ := checkReg_cases ra <;> obtain ⟨b, rfl⟩ | ⟨-, hb⟩ := checkReg_cases rb
  · rw [regByte_toNat, regByte_toNat] at h; omega
  all_goals simp [withRegs, checkRegs, *]

end Sys2Proof.Machine
end

