-- ==== Sys2Proof/Laws/Exec.lean ====
section
/-! SUPPORT. Execution: the next state of each shared shape of instruction on register operands, and the
cases of one cycle. -/

namespace Sys2Proof.Machine

open Config

/-! ### The shapes the meanings are made of -/

theorem aluBinary_ok {f : Byte → Byte → Except Cause Byte} {a b : Fin 8} {s : State} {v : Byte}
    (h : f (s.reg a) (s.reg b) = .ok v) :
    aluBinary f (regByte a) (regByte b) s = .next ((s.setReg a v).advance 3) := by
  simp [aluBinary, h]

theorem aluBinary_error {f : Byte → Byte → Except Cause Byte} {a b : Fin 8} {s : State} {c : Cause}
    (h : f (s.reg a) (s.reg b) = .error c) :
    aluBinary f (regByte a) (regByte b) s = .next (takeFault c s) := by
  simp [aluBinary, h]

theorem aluBinary_bad {ra rb : Byte} (h : 7 < ra.toNat ∨ 7 < rb.toNat)
    (f : Byte → Byte → Except Cause Byte) (s : State) :
    aluBinary f ra rb s = .next (takeFault .address s) := by
  simp [aluBinary, withRegs_bad h]

theorem jumpIf_regByte (taken : Bool) (k : Fin 8) (s : State) :
    jumpIf taken (regByte k) s = .next (if taken then s.setPc (s.reg k).toNat else s.advance 2) := by
  simp [jumpIf]

theorem jumpIf_bad {r : Byte} (h : 7 < r.toNat) (taken : Bool) (s : State) :
    jumpIf taken r s = .next (takeFault .address s) := by
  simp [jumpIf, withReg_bad h]

/-- PUSH with room below the stack pointer (R64). -/
theorem execPush_room {k : Fin 8} {s : State} (h : 0 < s.sp.toNat) :
    execPush (regByte k) s =
      .next (((s.setReg spReg (BitVec.ofNat 8 (s.sp.toNat - 1))).setMem
        (s.mem.write (s.sp.toNat - 1)
          ((s.setReg spReg (BitVec.ofNat 8 (s.sp.toNat - 1))).reg k))).advance 2) := by
  have below := s.sp.isLt
  have addr : pushAddress s = ((s.sp.toNat - 1 : Nat) : Int) := by rw [pushAddress]; omega
  simp only [execPush, withReg_regByte, addr, checkAddr_inside (show s.sp.toNat - 1 < 256 by omega),
    memWrite_inside _ (show s.sp.toNat - 1 < 256 by omega), settle_ok, State.setReg_mem]

/-- PUSH with the stack pointer at 0 (R64, R87). -/
theorem execPush_full {k : Fin 8} {s : State} (h : s.sp.toNat = 0) :
    execPush (regByte k) s = .next (takeFault .address s) := by
  simp [execPush, checkAddr_outside (show pushAddress s < 0 ∨ 256 ≤ pushAddress s by rw [pushAddress]; omega)]

/-- POP where the new stack pointer `n` is inside memory (R65). -/
theorem execPop_room {k : Fin 8} {s : State} {n : Nat}
    (h : popPointer k (s.mem.read s.sp.toNat) s = n) (hn : n < 256) :
    execPop (regByte k) s =
      .next (((s.setReg k (s.mem.read s.sp.toNat)).setReg spReg (BitVec.ofNat 8 n)).advance 2) := by
  simp [execPop, memRead_inside s s.sp.isLt, h, checkAddr_inside hn]

/-- POP where the new stack pointer would be 256 (R65, R87). -/
theorem execPop_empty {k : Fin 8} {s : State} (h : 256 ≤ popPointer k (s.mem.read s.sp.toNat) s) :
    execPop (regByte k) s = .next (takeFault .address s) := by
  simp [execPop, memRead_inside s s.sp.isLt, checkAddr_outside (.inr h)]

/-! ### The step is the cycle -/

theorem step_eq (s : State) : step s = cycle defaultOpcodes s := by rw [step]

theorem run_zero (s : State) : core.run 0 s = .next s := rfl

/-- One more step of a run. -/
theorem run_succ {s t : State} (k : Nat) (h : step s = .next t) : core.run (k + 1) s = core.run k t := by
  have h' : core.step s = .next t := h
  simp only [Host.Core.run, h']

/-! ### The cycle -/

theorem cycle_halted {o : Opcodes} {s : State} (h : s.run = .halted) : cycle o s = .next s := by
  simp [cycle, h]

theorem cycle_fetchFault {o : Opcodes} {s : State} (h : s.run = .running) (hp : 254 ≤ s.pc) :
    cycle o s = .next (takeFault .address s) := by
  simp [cycle, h, fetch_outside hp]

theorem cycle_fetched {o : Opcodes} {s : State} (h : s.run = .running) (hp : s.pc ≤ 253) :
    cycle o s = dispatchFetched o (s.mem.read s.pc) (s.mem.read (s.pc + 1)) (s.mem.read (s.pc + 2)) s := by
  simp [cycle, h, fetch_inside hp]

/-- An instruction executes exactly where three bytes can be fetched and decode to it. -/
theorem executes_iff {o : Opcodes} {s : State} {i : Instr} :
    Executes o s i ↔ s.run = .running ∧ s.pc ≤ 253 ∧
      decodeFetched o (s.mem.read s.pc) (s.mem.read (s.pc + 1)) (s.mem.read (s.pc + 2)) = .instr i := by
  constructor
  · rintro ⟨hr, op, a, b, hf, hd⟩
    obtain ⟨hp, h⟩ | ⟨-, h⟩ := fetch_cases s <;> rw [h] at hf <;> cases hf
    exact ⟨hr, hp, hd⟩
  · rintro ⟨hr, hp, hd⟩
    exact ⟨hr, _, _, _, fetch_inside hp, hd⟩

/-- An opcode byte is skipped exactly where three bytes can be fetched and it is none of the seventeen. -/
theorem skips_iff {o : Opcodes} {s : State} :
    Skips o s ↔ s.run = .running ∧ s.pc ≤ 253 ∧ s.mem.read s.pc ∉ o.bytes := by
  constructor
  · rintro ⟨hr, op, a, b, hf, hn⟩
    obtain ⟨hp, h⟩ | ⟨-, h⟩ := fetch_cases s <;> rw [h] at hf <;> cases hf
    exact ⟨hr, hp, hn⟩
  · rintro ⟨hr, hp, hn⟩
    exact ⟨hr, _, _, _, fetch_inside hp, hn⟩

/-- Everything one cycle can do. -/
theorem cycle_cases (o : Opcodes) (s : State) :
    (s.run = .halted ∧ cycle o s = .next s) ∨
    (s.run = .running ∧ 254 ≤ s.pc ∧ cycle o s = .next (takeFault .address s)) ∨
    (s.run = .running ∧ s.pc ≤ 253 ∧
      ((∃ i, decodeFetched o (s.mem.read s.pc) (s.mem.read (s.pc + 1)) (s.mem.read (s.pc + 2)) = .instr i ∧
          cycle o s = exec i s) ∨
        ((∃ op, decodeFetched o (s.mem.read s.pc) (s.mem.read (s.pc + 1)) (s.mem.read (s.pc + 2)) =
            .unrecognised op) ∧ cycle o s = .next (s.advance 1)))) := by
  cases hr : s.run with
  | halted => exact .inl ⟨rfl, cycle_halted hr⟩
  | running =>
    obtain ⟨hp, -⟩ | ⟨hp, -⟩ := fetch_cases s
    · refine .inr (.inr ⟨rfl, hp, ?_⟩)
      rw [cycle_fetched hr hp, dispatchFetched]
      cases hd : decodeFetched o (s.mem.read s.pc) (s.mem.read (s.pc + 1)) (s.mem.read (s.pc + 2)) with
      | instr i => exact .inl ⟨i, rfl, rfl⟩
      | unrecognised op => exact .inr ⟨⟨op, rfl⟩, rfl⟩
    · exact .inr (.inl ⟨rfl, hp, cycle_fetchFault hr hp⟩)

end Sys2Proof.Machine
end

