-- ==== Sys2Proof/Laws/Effect.lean ====
section
/-! SUPPORT. Effects: what `exec` answers for each instruction on register operands, and everything `exec` can
do at all. -/

namespace Sys2Proof.Machine

open Config

/-! ### The instructions on register operands -/

theorem exec_hlt (s : State) : exec .hlt s = .next s.halt := rfl

theorem exec_ldi (k : Fin 8) (imm : Byte) (s : State) :
    exec (.ldi (regByte k) imm) s = .next ((s.setReg k imm).advance 3) := by
  simp [exec, execLdi]

theorem exec_prn (k : Fin 8) (s : State) :
    exec (.prn (regByte k)) s = .next ((s.emit (s.reg k)).advance 2) := by
  simp [exec, execPrn]

theorem exec_mul (a b : Fin 8) (s : State) :
    exec (.mul (regByte a) (regByte b)) s = .next ((s.setReg a (aluMul (s.reg a) (s.reg b))).advance 3) := by
  rw [exec, execMul, aluBinary_ok rfl]

theorem exec_and (a b : Fin 8) (s : State) :
    exec (.and (regByte a) (regByte b)) s = .next ((s.setReg a (aluAnd (s.reg a) (s.reg b))).advance 3) := by
  rw [exec, execAnd, aluBinary_ok rfl]

theorem exec_or (a b : Fin 8) (s : State) :
    exec (.or (regByte a) (regByte b)) s = .next ((s.setReg a (aluOr (s.reg a) (s.reg b))).advance 3) := by
  rw [exec, execOr, aluBinary_ok rfl]

theorem exec_xor (a b : Fin 8) (s : State) :
    exec (.xor (regByte a) (regByte b)) s = .next ((s.setReg a (aluXor (s.reg a) (s.reg b))).advance 3) := by
  rw [exec, execXor, aluBinary_ok rfl]

theorem exec_shl (a b : Fin 8) (s : State) :
    exec (.shl (regByte a) (regByte b)) s = .next ((s.setReg a (aluShl (s.reg a) (s.reg b))).advance 3) := by
  rw [exec, execShl, aluBinary_ok rfl]

theorem exec_shr (a b : Fin 8) (s : State) :
    exec (.shr (regByte a) (regByte b)) s = .next ((s.setReg a (aluShr (s.reg a) (s.reg b))).advance 3) := by
  rw [exec, execShr, aluBinary_ok rfl]

theorem exec_not (a : Fin 8) (unused : Byte) (s : State) :
    exec (.not (regByte a) unused) s = .next ((s.setReg a (aluNot (s.reg a))).advance 3) := by
  simp [exec, execNot]

theorem exec_mod {a b : Fin 8} {s : State} (h : (s.reg b).toNat ≠ 0) :
    exec (.mod (regByte a) (regByte b)) s =
      .next ((s.setReg a (BitVec.ofNat 8 ((s.reg a).toNat % (s.reg b).toNat))).advance 3) := by
  rw [exec, execMod, aluBinary_ok (by rw [aluMod, if_neg h])]

theorem exec_mod_zero {a b : Fin 8} {s : State} (h : (s.reg b).toNat = 0) :
    exec (.mod (regByte a) (regByte b)) s = .next (takeFault .arithmetic s) := by
  rw [exec, execMod, aluBinary_error (by rw [aluMod, if_pos h])]

theorem exec_cmp (a b : Fin 8) (s : State) :
    exec (.cmp (regByte a) (regByte b)) s = .next ((s.setFl (cmpFlag (s.reg a) (s.reg b))).advance 3) := by
  simp [exec, execCmp]

theorem exec_jmp (k : Fin 8) (s : State) : exec (.jmp (regByte k)) s = .next (s.setPc (s.reg k).toNat) := by
  rw [exec, execJmp, jumpIf_regByte, if_pos rfl]

theorem exec_jeq (k : Fin 8) (s : State) :
    exec (.jeq (regByte k)) s = .next (if s.fl then s.setPc (s.reg k).toNat else s.advance 2) := by
  rw [exec, execJeq, jumpIf_regByte, jeqTaken]

theorem exec_jne (k : Fin 8) (s : State) :
    exec (.jne (regByte k)) s = .next (if s.fl then s.advance 2 else s.setPc (s.reg k).toNat) := by
  rw [exec, execJne, jumpIf_regByte, jneTaken]
  cases s.fl <;> rfl

theorem exec_push {k : Fin 8} {s : State} (h : 0 < s.sp.toNat) :
    exec (.push (regByte k)) s =
      .next (((s.setReg spReg (BitVec.ofNat 8 (s.sp.toNat - 1))).setMem
        (s.mem.write (s.sp.toNat - 1)
          ((s.setReg spReg (BitVec.ofNat 8 (s.sp.toNat - 1))).reg k))).advance 2) := by
  rw [exec, execPush_room h]

theorem exec_push_full {k : Fin 8} {s : State} (h : s.sp.toNat = 0) :
    exec (.push (regByte k)) s = .next (takeFault .address s) := by
  rw [exec, execPush_full h]

/-- The byte whose successor POP leaves in the stack pointer (R65). -/
def popBase (k : Fin 8) (s : State) : Byte := if k = 7 then s.mem.read s.sp.toNat else s.sp

theorem popPointer_eq (k : Fin 8) (s : State) :
    popPointer k (s.mem.read s.sp.toNat) s = (((popBase k s).toNat + 1 : Nat) : Int) := by
  rw [popPointer, popBase]; rfl

theorem exec_pop {k : Fin 8} {s : State} (h : (popBase k s).toNat < 255) :
    exec (.pop (regByte k)) s =
      .next (((s.setReg k (s.mem.read s.sp.toNat)).setReg spReg
        (BitVec.ofNat 8 ((popBase k s).toNat + 1))).advance 2) := by
  rw [exec, execPop_room (popPointer_eq k s) (by omega)]

theorem exec_pop_empty {k : Fin 8} {s : State} (h : (popBase k s).toNat = 255) :
    exec (.pop (regByte k)) s = .next (takeFault .address s) := by
  rw [exec, execPop_empty (by rw [popPointer_eq]; omega)]

/-! ### Everything an instruction can do -/

/-- The next states an instruction can answer, with when it answers each. -/
inductive Effect (i : Instr) (s : State) : State → Prop where
  | badIndex : i.wellFormed = false → Effect i s (takeFault .address s)
  | hlt : i = .hlt → Effect i s s.halt
  | ldi k imm : i = .ldi (regByte k) imm → Effect i s ((s.setReg k imm).advance 3)
  | prn k : i = .prn (regByte k) → Effect i s ((s.emit (s.reg k)).advance 2)
  | push k : i = .push (regByte k) → 0 < s.sp.toNat →
      Effect i s (((s.setReg spReg (BitVec.ofNat 8 (s.sp.toNat - 1))).setMem
        (s.mem.write (s.sp.toNat - 1)
          ((s.setReg spReg (BitVec.ofNat 8 (s.sp.toNat - 1))).reg k))).advance 2)
  | pushFull k : i = .push (regByte k) → s.sp.toNat = 0 → Effect i s (takeFault .address s)
  | pop k : i = .pop (regByte k) → (popBase k s).toNat < 255 →
      Effect i s (((s.setReg k (s.mem.read s.sp.toNat)).setReg spReg
        (BitVec.ofNat 8 ((popBase k s).toNat + 1))).advance 2)
  | popEmpty k : i = .pop (regByte k) → (popBase k s).toNat = 255 → Effect i s (takeFault .address s)
  | mul a b : i = .mul (regByte a) (regByte b) →
      Effect i s ((s.setReg a (aluMul (s.reg a) (s.reg b))).advance 3)
  | and a b : i = .and (regByte a) (regByte b) →
      Effect i s ((s.setReg a (aluAnd (s.reg a) (s.reg b))).advance 3)
  | or a b : i = .or (regByte a) (regByte b) →
      Effect i s ((s.setReg a (aluOr (s.reg a) (s.reg b))).advance 3)
  | xor a b : i = .xor (regByte a) (regByte b) →
      Effect i s ((s.setReg a (aluXor (s.reg a) (s.reg b))).advance 3)
  | shl a b : i = .shl (regByte a) (regByte b) →
      Effect i s ((s.setReg a (aluShl (s.reg a) (s.reg b))).advance 3)
  | shr a b : i = .shr (regByte a) (regByte b) →
      Effect i s ((s.setReg a (aluShr (s.reg a) (s.reg b))).advance 3)
  | not a unused : i = .not (regByte a) unused → Effect i s ((s.setReg a (aluNot (s.reg a))).advance 3)
  | mod a b : i = .mod (regByte a) (regByte b) → (s.reg b).toNat ≠ 0 →
      Effect i s ((s.setReg a (BitVec.ofNat 8 ((s.reg a).toNat % (s.reg b).toNat))).advance 3)
  | modZero a b : i = .mod (regByte a) (regByte b) → (s.reg b).toNat = 0 →
      Effect i s (takeFault .arithmetic s)
  | cmp a b : i = .cmp (regByte a) (regByte b) →
      Effect i s ((s.setFl (cmpFlag (s.reg a) (s.reg b))).advance 3)
  | jmp k : i = .jmp (regByte k) → Effect i s (s.setPc (s.reg k).toNat)
  | jeq k : i = .jeq (regByte k) → Effect i s (if s.fl then s.setPc (s.reg k).toNat else s.advance 2)
  | jne k : i = .jne (regByte k) → Effect i s (if s.fl then s.advance 2 else s.setPc (s.reg k).toNat)

/-- An instruction whose first index is bad is not well formed. -/
theorem wellFormed_bad {i : Instr} {r : Byte} (hr : r ∈ i.regOperands) (h : 7 < r.toNat) :
    i.wellFormed = false := by
  rw [Instr.wellFormed, List.all_eq_false]
  exact ⟨r, hr, by simpa using h⟩

/-- An ALU instruction of the shared shape: its effect on two registers, or a bad index. -/
theorem aluBinary_effect {f : Byte → Byte → Byte} {i : Instr} {ra rb : Byte} {s : State}
    (hi : exec i s = aluBinary (fun a b => .ok (f a b)) ra rb s) (ops : i.regOperands = [ra, rb])
    (eff : ∀ a b, ra = regByte a → rb = regByte b → Effect i s ((s.setReg a (f (s.reg a) (s.reg b))).advance 3)) :
    ∃ t, exec i s = .next t ∧ Effect i s t := by
  obtain ⟨a, rfl⟩ | ⟨ha, -⟩ := checkReg_cases ra
  · obtain ⟨b, rfl⟩ | ⟨hb, -⟩ := checkReg_cases rb
    · exact ⟨_, hi.trans (aluBinary_ok rfl), eff a b rfl rfl⟩
    · exact ⟨_, hi.trans (aluBinary_bad (.inr hb) _ _), .badIndex (wellFormed_bad (by simp [ops]) hb)⟩
  · exact ⟨_, hi.trans (aluBinary_bad (.inl ha) _ _), .badIndex (wellFormed_bad (by simp [ops]) ha)⟩

/-- An instruction of one register operand: its effect on a register, or a bad index. -/
theorem withReg_effect {i : Instr} {r : Byte} {s : State} {f : Fin 8 → Except Cause State}
    (hi : exec i s = settle s (withReg r f)) (op : r ∈ i.regOperands)
    (eff : ∀ k, r = regByte k → ∃ t, exec i s = .next t ∧ Effect i s t) :
    ∃ t, exec i s = .next t ∧ Effect i s t := by
  obtain ⟨k, hk⟩ | ⟨h, -⟩ := checkReg_cases r
  · exact eff k hk
  · exact ⟨_, by rw [hi, withReg_bad h, settle_error], .badIndex (wellFormed_bad op h)⟩

/-- Every instruction answers a next state, and one of its effects. -/
theorem exec_effect (i : Instr) (s : State) : ∃ t, exec i s = .next t ∧ Effect i s t := by
  cases i with
  | hlt => exact ⟨_, exec_hlt s, .hlt rfl⟩
  | ldi r imm =>
    refine withReg_effect rfl (List.mem_singleton_self r) fun k hk => ?_
    subst hk
    exact ⟨_, exec_ldi k imm s, .ldi k imm rfl⟩
  | prn r =>
    refine withReg_effect rfl (List.mem_singleton_self r) fun k hk => ?_
    subst hk
    exact ⟨_, exec_prn k s, .prn k rfl⟩
  | push r =>
    refine withReg_effect rfl (List.mem_singleton_self r) fun k hk => ?_
    subst hk
    obtain h | h := Nat.eq_zero_or_pos s.sp.toNat
    · exact ⟨_, exec_push_full h, .pushFull k rfl h⟩
    · exact ⟨_, exec_push h, .push k rfl h⟩
  | pop r =>
    refine withReg_effect rfl (List.mem_singleton_self r) fun k hk => ?_
    subst hk
    by_cases h : (popBase k s).toNat < 255
    · exact ⟨_, exec_pop h, .pop k rfl h⟩
    · have h' : (popBase k s).toNat = 255 := by have := (popBase k s).isLt; omega
      exact ⟨_, exec_pop_empty h', .popEmpty k rfl h'⟩
  | mul ra rb => exact aluBinary_effect (f := aluMul) rfl rfl fun a b ha hb => .mul a b (by rw [ha, hb])
  | and ra rb => exact aluBinary_effect (f := aluAnd) rfl rfl fun a b ha hb => .and a b (by rw [ha, hb])
  | or ra rb => exact aluBinary_effect (f := aluOr) rfl rfl fun a b ha hb => .or a b (by rw [ha, hb])
  | xor ra rb => exact aluBinary_effect (f := aluXor) rfl rfl fun a b ha hb => .xor a b (by rw [ha, hb])
  | shl ra rb => exact aluBinary_effect (f := aluShl) rfl rfl fun a b ha hb => .shl a b (by rw [ha, hb])
  | shr ra rb => exact aluBinary_effect (f := aluShr) rfl rfl fun a b ha hb => .shr a b (by rw [ha, hb])
  | not ra unused =>
    refine withReg_effect rfl (List.mem_singleton_self ra) fun k hk => ?_
    subst hk
    exact ⟨_, exec_not k unused s, .not k unused rfl⟩
  | mod ra rb =>
    obtain ⟨a, rfl⟩ | ⟨ha, -⟩ := checkReg_cases ra
    · obtain ⟨b, rfl⟩ | ⟨hb, -⟩ := checkReg_cases rb
      · by_cases h : (s.reg b).toNat = 0
        · exact ⟨_, exec_mod_zero h, .modZero a b rfl h⟩
        · exact ⟨_, exec_mod h, .mod a b rfl h⟩
      · exact ⟨_, aluBinary_bad (.inr hb) _ _, .badIndex (wellFormed_bad (by simp [Instr.regOperands]) hb)⟩
    · exact ⟨_, aluBinary_bad (.inl ha) _ _, .badIndex (wellFormed_bad (by simp [Instr.regOperands]) ha)⟩
  | cmp ra rb =>
    obtain ⟨a, rfl⟩ | ⟨ha, -⟩ := checkReg_cases ra
    · obtain ⟨b, rfl⟩ | ⟨hb, -⟩ := checkReg_cases rb
      · exact ⟨_, exec_cmp a b s, .cmp a b rfl⟩
      · exact ⟨_, by rw [exec, execCmp, withRegs_bad (.inr hb), settle_error],
          .badIndex (wellFormed_bad (by simp [Instr.regOperands]) hb)⟩
    · exact ⟨_, by rw [exec, execCmp, withRegs_bad (.inl ha), settle_error],
        .badIndex (wellFormed_bad (by simp [Instr.regOperands]) ha)⟩
  | jmp r =>
    refine withReg_effect rfl (List.mem_singleton_self r) fun k hk => ?_
    subst hk
    exact ⟨_, exec_jmp k s, .jmp k rfl⟩
  | jeq r =>
    refine withReg_effect rfl (List.mem_singleton_self r) fun k hk => ?_
    subst hk
    exact ⟨_, exec_jeq k s, .jeq k rfl⟩
  | jne r =>
    refine withReg_effect rfl (List.mem_singleton_self r) fun k hk => ?_
    subst hk
    exact ⟨_, exec_jne k s, .jne k rfl⟩

/-- What an instruction answered is one of its effects. -/
theorem effect_of_exec {i : Instr} {s t : State} (h : exec i s = .next t) : Effect i s t := by
  obtain ⟨u, hu, e⟩ := exec_effect i s
  rw [h] at hu
  obtain rfl := Host.Outcome.next.inj hu
  exact e

end Sys2Proof.Machine
end

