-- ==== Sys2Proof/Laws/PerInstr.lean ====
section
/-! SUPPORT. Facts about every instruction as syntax, one lemma per constructor. -/

namespace Sys2Proof.Laws.EncodedLength

open Config

/-- The encoding is as long as the instruction's `pc` advance, one to three bytes (R40, R57). -/
def Statement (i : Instr) : Prop :=
  ∀ o : Opcodes, (encode o i).length = i.length ∧ 1 ≤ i.length ∧ i.length ≤ 3

theorem hlt : Statement .hlt := fun _ => ⟨rfl, le_refl 1, by decide⟩
theorem ldi (r imm : Byte) : Statement (.ldi r imm) := fun _ => ⟨rfl, show 1 ≤ 3 by decide, show 3 ≤ 3 by decide⟩
theorem prn (r : Byte) : Statement (.prn r) := fun _ => ⟨rfl, show 1 ≤ 2 by decide, show 2 ≤ 3 by decide⟩
theorem push (r : Byte) : Statement (.push r) := fun _ => ⟨rfl, show 1 ≤ 2 by decide, show 2 ≤ 3 by decide⟩
theorem pop (r : Byte) : Statement (.pop r) := fun _ => ⟨rfl, show 1 ≤ 2 by decide, show 2 ≤ 3 by decide⟩
theorem mul (ra rb : Byte) : Statement (.mul ra rb) := fun _ => ⟨rfl, show 1 ≤ 3 by decide, show 3 ≤ 3 by decide⟩
theorem and (ra rb : Byte) : Statement (.and ra rb) := fun _ => ⟨rfl, show 1 ≤ 3 by decide, show 3 ≤ 3 by decide⟩
theorem or (ra rb : Byte) : Statement (.or ra rb) := fun _ => ⟨rfl, show 1 ≤ 3 by decide, show 3 ≤ 3 by decide⟩
theorem xor (ra rb : Byte) : Statement (.xor ra rb) := fun _ => ⟨rfl, show 1 ≤ 3 by decide, show 3 ≤ 3 by decide⟩
theorem not (ra unused : Byte) : Statement (.not ra unused) := fun _ => ⟨rfl, show 1 ≤ 3 by decide, show 3 ≤ 3 by decide⟩
theorem shl (ra rb : Byte) : Statement (.shl ra rb) := fun _ => ⟨rfl, show 1 ≤ 3 by decide, show 3 ≤ 3 by decide⟩
theorem shr (ra rb : Byte) : Statement (.shr ra rb) := fun _ => ⟨rfl, show 1 ≤ 3 by decide, show 3 ≤ 3 by decide⟩
theorem mod (ra rb : Byte) : Statement (.mod ra rb) := fun _ => ⟨rfl, show 1 ≤ 3 by decide, show 3 ≤ 3 by decide⟩
theorem cmp (ra rb : Byte) : Statement (.cmp ra rb) := fun _ => ⟨rfl, show 1 ≤ 3 by decide, show 3 ≤ 3 by decide⟩
theorem jmp (r : Byte) : Statement (.jmp r) := fun _ => ⟨rfl, show 1 ≤ 2 by decide, show 2 ≤ 3 by decide⟩
theorem jeq (r : Byte) : Statement (.jeq r) := fun _ => ⟨rfl, show 1 ≤ 2 by decide, show 2 ≤ 3 by decide⟩
theorem jne (r : Byte) : Statement (.jne r) := fun _ => ⟨rfl, show 1 ≤ 2 by decide, show 2 ≤ 3 by decide⟩

end Sys2Proof.Laws.EncodedLength
end

