-- ==== Sys2Proof/Machine/Boundary.lean ====
section
/-! DEFINITION. The boundary of the block (spec/70_reset_and_hazards.md R105, R106): what the host hands in
before the first step, and what it and the output collaborator make of a run. No step reads any of it. -/

namespace Sys2Proof.Machine

open Config

/-- What the host does to begin a run: load the program it has, or the default program where it has none
(R101, decision D24). No run where the program is too long (R102, R103). -/
def launch (program : Option (List Byte)) : Option State := load (program.getD defaultProgram)

/-- What the host may read at the end of a run (R105, R106): true exactly when the run ended by HLT, which
the runner maps to exit code 0. -/
def State.exitOk (s : State) : Bool := decide (s.run = .halted ∧ s.fault = .none)

/-- The number the host reads in the fault register (R15, R83, R105). -/
def State.faultNumber (s : State) : Nat := s.fault.number

/-- How the output collaborator shows one value (R17, decision D17): the unsigned decimal numeral with no
leading zeros, and a line terminator whose characters are the collaborator's. -/
def renderValue (terminator : List Char) (v : Byte) : List Char := Nat.toDigits 10 v.toNat ++ terminator

/-- The whole output as text, in order (R17). -/
def renderOutput (terminator : List Char) (out : List Byte) : List Char :=
  out.flatMap (renderValue terminator)

end Sys2Proof.Machine
end

