-- ==== Sys2Proof/Tests/Slice0.lean ====
section
/-! SUPPORT. Tests: ill-formed terms, words written out from the encodings of the spec, single steps whose
results are those of spec/95_test_vectors.md (the vector's id stands before each), and a witness for the
hypotheses of each statement that has some. -/

namespace Sys2Proof.Tests

open Config Machine

/-! ### Well-formedness: a term each check refuses -/

theorem test_ldi_index_refused : (Instr.ldi 8 0).wellFormed = false := by decide
theorem test_prn_index_refused : (Instr.prn 255).wellFormed = false := by decide
theorem test_push_index_refused : (Instr.push 8).wellFormed = false := by decide
theorem test_pop_index_refused : (Instr.pop 9).wellFormed = false := by decide
theorem test_alu_first_index_refused :
    [Instr.mul 8 0, .and 8 0, .or 8 0, .xor 8 0, .not 8 0, .shl 8 0, .shr 8 0, .mod 8 0, .cmp 8 0].map
      Instr.wellFormed = List.replicate 9 false := by decide
theorem test_alu_second_index_refused :
    [Instr.mul 0 8, .and 0 8, .or 0 8, .xor 0 8, .shl 0 8, .shr 0 8, .mod 0 8, .cmp 0 8].map
      Instr.wellFormed = List.replicate 8 false := by decide
theorem test_jump_index_refused :
    [Instr.jmp 8, .jeq 8, .jne 8].map Instr.wellFormed = List.replicate 3 false := by decide
theorem test_not_third_byte_accepted : (Instr.not 7 255).wellFormed = true := by decide
theorem test_ldi_immediate_accepted : (Instr.ldi 7 255).wellFormed = true := by decide

/-! ### Decoding: each instruction's word, bit by bit from its encoding (R41, R45, R46) -/

theorem test_decode_hlt : decode defaultOpcodes [0b00000001, 0xFF, 0xFF] = .ok .hlt := by decide
theorem test_decode_ldi : decode defaultOpcodes [0b10000010, 0b00000101, 0b10100101] = .ok (.ldi 5 165) := by decide
theorem test_decode_prn : decode defaultOpcodes [0b01000111, 0b00000110, 0b00000001] = .ok (.prn 6) := by decide
theorem test_decode_push : decode defaultOpcodes [0b01000101, 0b00000111, 0b00000001] = .ok (.push 7) := by decide
theorem test_decode_pop : decode defaultOpcodes [0b01000110, 0b00000001, 0b00000001] = .ok (.pop 1) := by decide
theorem test_decode_mul : decode defaultOpcodes [0b10100010, 0b00000010, 0b00000011] = .ok (.mul 2 3) := by decide
theorem test_decode_and : decode defaultOpcodes [0b10101000, 0b00000010, 0b00000011] = .ok (.and 2 3) := by decide
theorem test_decode_or : decode defaultOpcodes [0b10101010, 0b00000010, 0b00000011] = .ok (.or 2 3) := by decide
theorem test_decode_xor : decode defaultOpcodes [0b10101011, 0b00000010, 0b00000011] = .ok (.xor 2 3) := by decide
theorem test_decode_not : decode defaultOpcodes [0b01101001, 0b00000010, 0b11111111] = .ok (.not 2 255) := by decide
theorem test_decode_shl : decode defaultOpcodes [0b10101100, 0b00000010, 0b00000011] = .ok (.shl 2 3) := by decide
theorem test_decode_shr : decode defaultOpcodes [0b10101101, 0b00000010, 0b00000011] = .ok (.shr 2 3) := by decide
theorem test_decode_mod : decode defaultOpcodes [0b10100100, 0b00000010, 0b00000011] = .ok (.mod 2 3) := by decide
theorem test_decode_cmp : decode defaultOpcodes [0b10100111, 0b00000010, 0b00000011] = .ok (.cmp 2 3) := by decide
theorem test_decode_jmp : decode defaultOpcodes [0b01010100, 0b00000011, 0b00000000] = .ok (.jmp 3) := by decide
theorem test_decode_jeq : decode defaultOpcodes [0b01010101, 0b00000010, 0b00000000] = .ok (.jeq 2) := by decide
theorem test_decode_jne : decode defaultOpcodes [0b01010110, 0b00000010, 0b00000000] = .ok (.jne 2) := by decide

/-- R49: ADD of other LS-8 descriptions is no instruction here. -/
theorem test_decode_unrecognised : decode defaultOpcodes [0xA0, 0, 1] = .error (.unrecognised 0xA0) := by decide
theorem test_decode_truncated : decode defaultOpcodes [0x01, 0] = .error (.truncated 2) := by decide
theorem test_default_opcodes_legal : defaultOpcodes.Legal := by decide
/-- R49: 239 of the 256 opcode bytes are unrecognised under the default values. -/
theorem test_default_unrecognised_count :
    ((List.range 256).filter fun n => decide (BitVec.ofNat 8 n ∉ defaultOpcodes.bytes)).length = 239 := by
  decide +kernel
theorem test_table_word : decodeTableWord 24 0x0302A2 = some (.mul 2 3) := by decide
theorem test_table_word_short : decodeTableWord 8 0xFFFF69 = some (.not 0 0) := by decide
/-- P1 and R51: the fallback program is the encodings of its three instructions. -/
theorem test_encode_default_program :
    encode defaultOpcodes (.ldi 0 8) ++ encode defaultOpcodes (.prn 0) ++ encode defaultOpcodes .hlt =
      defaultProgram := by decide

/-! ### Single steps -/

/-- The next state an outcome answers, if it answers one. -/
def answer : Result → Option State
  | .next t => some t
  | .fault _ => none
  | .refused _ => none

/-- The state after a step, if the step answers one. -/
def after (s : State) : Option State := answer (step s)

/-- A machine as reset leaves it, with `bytes` at `p`, where `pc` stands. -/
def at_ (p : Nat) (bytes : List Byte) : State :=
  { State.reset with pc := p, mem := Memory.place [] p bytes }

/-- With register `k` holding `v`. -/
def with_ (s : State) (k : Fin 8) (v : Byte) : State := { s with regs := s.regs.set k v }

/-- What a test looks at: the pc, the run state, the fault register and one register. -/
def view (k : Fin 8) (s : State) : Nat × RunState × FaultCode × Byte := (s.pc, s.run, s.fault, s.regs.get k)

-- V-FD1
theorem test_hlt_at_253 : (after (at_ 253 [0x01])).map (view 7) = some (253, .halted, .none, 255) := by decide
-- V-FD2
theorem test_hlt_at_254 : (after (at_ 254 [0x01])).map (view 7) = some (254, .halted, .addr, 255) := by decide
-- V-FD4
theorem test_ldi_at_253 : (after (at_ 253 [0x82, 1, 9])).map (view 1) = some (256, .running, .none, 9) := by decide
-- V-SD5
theorem test_ldi_index_255 : (after (at_ 0 [0x82, 0xFF, 5])).map (view 7) = some (0, .halted, .addr, 255) := by decide
-- V-SD6
theorem test_prn_255 : (after (with_ (at_ 0 [0x47, 2]) 2 255)).map (fun t => (t.out, t.pc)) = some ([255], 2) := by decide
-- V-SD8
theorem test_prn_index_255 : (after (at_ 0 [0x47, 0xFF])).map (fun t => (t.out, t.fault)) = some ([], .addr) := by decide
-- V-ST7
theorem test_push_r7 :
    (after (at_ 0 [0x45, 7])).map (fun t => (t.mem.read 254, t.mem.read 255, t.regs.r7)) = some (254, 0, 254) := by decide
-- V-ST5
theorem test_push_at_zero : (after (with_ (at_ 0 [0x45, 0]) 7 0)).map (view 7) = some (0, .halted, .addr, 0) := by decide
-- V-ST9
theorem test_pop_r7 : (after (with_ (at_ 4 [0x46, 0x07]) 7 4)).map (view 7) = some (6, .running, .none, 0x47) := by decide
-- V-ST4
theorem test_pop_empty : (after (at_ 0 [0x46, 0])).map (view 7) = some (0, .halted, .addr, 255) := by decide
-- V-AL2
theorem test_mul_255_255 :
    (after (with_ (with_ (at_ 0 [0xA2, 0, 1]) 0 255) 1 255)).map (view 0) = some (3, .running, .none, 1) := by decide
-- V-AL4
theorem test_mul_squares : (after (with_ (at_ 0 [0xA2, 0, 0]) 0 12)).map (view 0) = some (3, .running, .none, 144) := by decide
-- V-AL5
theorem test_and :
    (after (with_ (with_ (at_ 0 [0xA8, 0, 1]) 0 0xCC) 1 0xAA)).map (view 0) = some (3, .running, .none, 0x88) := by decide
-- V-AL6
theorem test_or :
    (after (with_ (with_ (at_ 0 [0xAA, 0, 1]) 0 0xCC) 1 0xAA)).map (view 0) = some (3, .running, .none, 0xEE) := by decide
-- V-AL7, V-AL7b
theorem test_xor :
    (after (with_ (with_ (at_ 0 [0xAB, 0, 1]) 0 0xCC) 1 0xAA)).map (view 0) = some (3, .running, .none, 0x66) := by decide
theorem test_xor_clears : (after (with_ (at_ 0 [0xAB, 0, 0]) 0 0xC8)).map (view 0) = some (3, .running, .none, 0) := by decide
-- V-AL9
theorem test_not_third_byte : (after (with_ (at_ 0 [0x69, 2, 0xFF]) 2 0x0F)).map (view 2) = some (3, .running, .none, 0xF0) := by decide
-- V-AL10
theorem test_not_index_8 : (after (at_ 0 [0x69, 8, 0])).map (view 0) = some (0, .halted, .addr, 0) := by decide
-- V-AL14
theorem test_shl_by_8 :
    (after (with_ (with_ (at_ 0 [0xAC, 0, 1]) 0 0xFF) 1 8)).map (view 0) = some (3, .running, .none, 0) := by decide
-- V-AL17
theorem test_shl_by_itself : (after (with_ (at_ 0 [0xAC, 0, 0]) 0 3)).map (view 0) = some (3, .running, .none, 24) := by decide
-- V-AL19
theorem test_shr_logical :
    (after (with_ (with_ (at_ 0 [0xAD, 0, 1]) 0 0x80) 1 7)).map (view 0) = some (3, .running, .none, 1) := by decide
-- V-AL20
theorem test_shr_by_8 :
    (after (with_ (with_ (at_ 0 [0xAD, 0, 1]) 0 0xFF) 1 8)).map (view 0) = some (3, .running, .none, 0) := by decide
-- V-AL23
theorem test_mod_200_7 :
    (after (with_ (with_ (at_ 0 [0xA4, 0, 1]) 0 200) 1 7)).map (view 0) = some (3, .running, .none, 4) := by decide
-- V-AL28
theorem test_mod_by_zero : (after (with_ (at_ 6 [0xA4, 0, 1]) 0 10)).map (view 0) = some (6, .halted, .arith, 10) := by decide
-- V-AL36
theorem test_cmp_top_bit :
    (after { with_ (at_ 0 [0xA7, 0, 1]) 0 0x80 with fl := true }).map (fun t => (t.fl, t.pc)) = some (false, 3) := by decide
-- V-AL35
theorem test_cmp_with_itself : (after (at_ 0 [0xA7, 3, 3])).map (fun t => (t.fl, t.pc)) = some (true, 3) := by decide
-- V-JP9
theorem test_jmp_255 : (after (with_ (at_ 10 [0x54, 2]) 2 255)).map (view 2) = some (255, .running, .none, 255) := by decide
-- V-JP4
theorem test_jeq_not_taken : (after (with_ (at_ 10 [0x55, 2]) 2 40)).map (view 2) = some (12, .running, .none, 40) := by decide
-- V-JP7
theorem test_jeq_bad_index_not_taken : (after (at_ 10 [0x55, 9])).map (view 2) = some (10, .halted, .addr, 0) := by decide
-- V-JP5
theorem test_jne_taken : (after (with_ (at_ 10 [0x56, 2]) 2 40)).map (view 2) = some (40, .running, .none, 40) := by decide
-- V-JP6
theorem test_jne_not_taken :
    (after { with_ (at_ 10 [0x56, 2]) 2 40 with fl := true }).map (view 2) = some (12, .running, .none, 40) := by decide
-- V-FD6
theorem test_unrecognised_skips : (after (at_ 0 [0xA0])).map (view 7) = some (1, .running, .none, 255) := by decide
-- V-AL31: the bad index is reported, not the divisor
theorem test_mod_bad_index : (after (at_ 0 [0xA4, 0, 8])).map (view 0) = some (0, .halted, .addr, 0) := by decide

/-! ### Loading, placing a word, and the boundary -/

-- R100, R101
theorem test_launch_default :
    (launch none).map (fun s => (List.range 7).map s.mem.read) = some [0x82, 0, 8, 0x47, 0, 1, 0] := by decide
theorem test_fetch_word_runs :
    (after ((addressFaulted (at_ 255 [])).withFetchWord 24 0x080082)).map (view 0) = some (3, .running, .addr, 8) := by decide
-- R17: no leading zeros, no sign
theorem test_render : renderOutput ['\n'] [0, 255] = ['0', '\n', '2', '5', '5', '\n'] := by decide
-- R83
theorem test_fault_numbers : [FaultCode.none, .arith, .addr].map FaultCode.number = [0, 1, 2] := by decide
theorem test_exit_ok : (State.reset.halt.exitOk, (addressFaulted State.reset).exitOk, State.reset.exitOk) = (true, false, false) := by decide

/-! ### Witnesses: a state and operands that meet the hypotheses of each statement -/

theorem witness_loadPlacesProgramFromZero :
    (List.replicate 256 (7 : Byte)).length ≤ 256 ∧ (List.replicate 256 (7 : Byte))[255]? = some 7 ∧
      (List.replicate 256 (7 : Byte))[0]? = some 7 := by decide +kernel
theorem witness_loadKeepsResetAndRefusesTooLong :
    (∃ s, load [] = some s) ∧ ([] : List Byte).length ≤ 0 ∧ 256 < (List.replicate 257 (0 : Byte)).length :=
  ⟨⟨_, rfl⟩, le_refl _, by decide +kernel⟩
theorem witness_memoryPortReadsLastWrite : (at_ 254 [9]).mem.wf ∧ (255 : Nat) ≤ 255 ∧ (0 : Nat) ≤ 255 ∧ (0 : Nat) ≠ 255 := by decide
theorem witness_accessOutsideMemoryFaults :
    ((-1 : Int) < 0 ∧ (255 : Int) < 256) ∧ (0 ≤ (0 : Int) ∧ (0 : Int) ≤ 255) ∧ 0 ≤ (255 : Int) ∧ (255 : Int) ≤ 255 := by decide
theorem witness_canonicalMemoriesEqualWhenReadAlike :
    Memory.wf [(3, 1), (254, 9)] ∧ Memory.wf (Memory.write [(254, 9)] 3 1) ∧
      ∀ a, Memory.read [(3, 1), (254, 9)] a = (Memory.write [(254, 9)] 3 1).read a :=
  ⟨by decide, by decide, fun _ => rfl⟩
theorem witness_decodeOfEncode : defaultOpcodes.Legal ∧ 2 ≤ [(0 : Byte), 255].length := by decide
theorem witness_encodeOfDecode : decode defaultOpcodes [0x69, 2, 255, 1] = .ok (.not 2 255) := by decide
theorem witness_stepRunsDecodedInstruction :
    (at_ 253 [0x82, 1, 9]).run = .running ∧ (at_ 253 [0x82, 1, 9]).pc ≤ 253 ∧
      decode defaultOpcodes [(at_ 253 [0x82, 1, 9]).mem.read 253, (at_ 253 [0x82, 1, 9]).mem.read (253 + 1),
        (at_ 253 [0x82, 1, 9]).mem.read (253 + 2)] = .ok (.ldi 1 9) := by decide
theorem witness_fetchPastTopFaults : (at_ 254 [1]).run = .running ∧ 254 ≤ (at_ 254 [1]).pc := by decide
theorem witness_unrecognisedOpcodeOnlyAdvances :
    (at_ 253 [0xA0]).run = .running ∧ (at_ 253 [0xA0]).pc ≤ 253 ∧
      (at_ 253 [0xA0]).mem.read (at_ 253 [0xA0]).pc ∉ defaultOpcodes.bytes := by decide
theorem witness_haltedDoesNothingForEver : (addressFaulted State.reset).run = .halted := by decide
theorem witness_stepKeepsInvariant : Inv (at_ 253 [0x82, 1, 9]) ∧ ∃ t, step (at_ 253 [0x82, 1, 9]) = .next t ∧ t.pc = 256 :=
  ⟨⟨by decide, by decide, by decide⟩, _, rfl, rfl⟩
theorem witness_everyRunStaysInRange : ∃ s t, load [0x01] = some s ∧ core.run 2 s = .next t ∧ t.run = .halted :=
  ⟨_, _, rfl, rfl, rfl⟩
/-- For FaultEntryIsPrecise, ArithmeticFaultExactlyOnModByZero and NormalEndExactlyByHlt: a MOD by zero. -/
theorem witness_arithmeticFault :
    (at_ 0 [0xA4, 0, 1]).run = .running ∧ (at_ 0 [0xA4, 0, 1]).fault = .none ∧
      Executes defaultOpcodes (at_ 0 [0xA4, 0, 1]) (.mod (regByte 0) (regByte 1)) ∧
      ((at_ 0 [0xA4, 0, 1]).reg 1).toNat = 0 ∧
      ∃ t, cycle defaultOpcodes (at_ 0 [0xA4, 0, 1]) = .next t ∧ t.fault = .arith :=
  ⟨rfl, rfl, executes_iff.2 (by decide), rfl, _, rfl, rfl⟩
/-- For AddressFaultExactlyWhereListed and StackEdgesFault: each of the four cases, POP's in both its forms. -/
theorem witness_addressFault_fetch :
    (at_ 254 [1]).run = .running ∧ (at_ 254 [1]).fault = .none ∧
      ∃ t, cycle defaultOpcodes (at_ 254 [1]) = .next t ∧ t.fault = .addr :=
  ⟨rfl, rfl, _, rfl, rfl⟩
theorem witness_addressFault_index :
    Executes defaultOpcodes (at_ 0 [0x47, 8]) (.prn 8) ∧ (Instr.prn 8).wellFormed = false ∧
      ∃ t, cycle defaultOpcodes (at_ 0 [0x47, 8]) = .next t ∧ t.fault = .addr :=
  ⟨executes_iff.2 (by decide), rfl, _, rfl, rfl⟩
theorem witness_addressFault_push :
    Executes defaultOpcodes (with_ (at_ 0 [0x45, 0]) 7 0) (.push (regByte 0)) ∧
      (with_ (at_ 0 [0x45, 0]) 7 0).sp.toNat = 0 :=
  ⟨executes_iff.2 (by decide), rfl⟩
theorem witness_addressFault_pop :
    Executes defaultOpcodes (at_ 0 [0x46, 0]) (.pop (regByte 0)) ∧ (at_ 0 [0x46, 0]).sp.toNat = 255 :=
  ⟨executes_iff.2 (by decide), rfl⟩
/-- V-ST10. -/
theorem witness_addressFault_pop_r7 :
    Executes defaultOpcodes (with_ (at_ 3 [0x46, 7, 255]) 7 5) (.pop (regByte 7)) ∧
      ((with_ (at_ 3 [0x46, 7, 255]) 7 5).mem.read (with_ (at_ 3 [0x46, 7, 255]) 7 5).sp.toNat).toNat = 255 :=
  ⟨executes_iff.2 (by decide), rfl⟩
/-- For HaltedOnlyByHltOrFault and NormalEndExactlyByHlt: a HLT. -/
theorem witness_halt :
    (at_ 253 [1]).run = .running ∧ (at_ 253 [1]).fault = .none ∧ Executes defaultOpcodes (at_ 253 [1]) .hlt ∧
      ∃ t, cycle defaultOpcodes (at_ 253 [1]) = .next t ∧ t.run = .halted :=
  ⟨rfl, rfl, executes_iff.2 (by decide), _, rfl, rfl⟩
theorem witness_badRegisterIndexFaults :
    (Instr.push 8).wellFormed = false ∧ 7 < (8 : Byte).toNat ∧ 7 < (255 : Byte).toNat ∧
      Instr.jne 8 ∈ [Instr.jmp 8, .jeq 8, .jne 8] := by decide
/-- For every statement about a skipped opcode byte. -/
theorem witness_skips : Skips defaultOpcodes (at_ 0 [0xA0]) := skips_iff.2 (by decide)
theorem witness_flagWrittenByCmpReadByJumps :
    (∃ t, exec (.cmp (regByte 0) (regByte 7)) State.reset = .next t ∧ t.fl = false) ∧
      (∀ ra rb, Instr.ldi 0 1 ≠ .cmp ra rb) ∧ (∀ r, Instr.ldi 0 1 ≠ .jeq r ∧ Instr.ldi 0 1 ≠ .jne r) ∧
      (∃ t, exec (.ldi 0 1) State.reset = .next t) ∧
      ∃ t, cycle defaultOpcodes (at_ 0 [0xA0]) = .next t ∧ t.pc = 1 :=
  ⟨⟨_, rfl, rfl⟩, fun _ _ => by simp, fun _ => by simp, ⟨_, rfl⟩, _, rfl, rfl⟩
/-- For OutputGrowsOnlyByPrn and OutputNeverRead: both cases. -/
theorem witness_output :
    (∃ t, cycle defaultOpcodes (at_ 0 [0x47, 7]) = .next t ∧ t.out = [255]) ∧
      ∃ t, cycle defaultOpcodes (at_ 0 [0x01]) = .next t ∧ t.out = [] :=
  ⟨⟨_, rfl, rfl⟩, _, rfl, rfl⟩
/-- For OnlyPushStores: a PUSH at the lowest legal stack pointer (V-ST6). -/
theorem witness_onlyPushStores :
    (with_ (at_ 4 [0x45, 0]) 7 1).mem.wf ∧
      ∃ t, cycle defaultOpcodes (with_ (at_ 4 [0x45, 0]) 7 1) = .next t ∧ t.regs.r7 = 0 :=
  ⟨by decide, _, rfl, rfl⟩
/-- For PcFollowsTable: an instruction that completes and one that faults. -/
theorem witness_pcFollowsTable :
    (Executes defaultOpcodes (at_ 10 [0x54, 7]) (.jmp 7) ∧
        ∃ t, cycle defaultOpcodes (at_ 10 [0x54, 7]) = .next t ∧ t.fault = .none ∧ t.pc = 255) ∧
      Executes defaultOpcodes (at_ 0 [0x46, 0]) (.pop 0) ∧
        ∃ t, cycle defaultOpcodes (at_ 0 [0x46, 0]) = .next t ∧ t.fault ≠ .none :=
  ⟨⟨executes_iff.2 (by decide), _, rfl, rfl, rfl⟩, executes_iff.2 (by decide), _, rfl, by decide⟩
/-- For StoreSeenByNextFetch, as in program P9: register 0 holds 1 and the PUSH at 6 stores `d` bytes past the
next opcode. -/
def pushAhead (d : Byte) : State := with_ (with_ (at_ 6 [0x45, 0]) 0 1) 7 (9 + d)

/-- The next state's fault register, run state and fetched bytes, and how far ahead of its `pc` the PUSH stored. -/
def pushedAhead (d : Byte) : Option (FaultCode × RunState × List Byte × Int) :=
  (answer (exec (.push (regByte 0)) (pushAhead d))).map fun t =>
    (t.fault, t.run, ((fetch t).toOption.map fun f => [f.1, f.2.1, f.2.2]).getD [], pushAddress (pushAhead d) - t.pc)

theorem witness_storeSeenByNextFetch :
    pushedAhead 0 = some (.none, .running, [1, 0, 0], 0) ∧
      pushedAhead 1 = some (.none, .running, [0, 1, 0], 1) ∧
      pushedAhead 2 = some (.none, .running, [0, 0, 1], 2) ∧ (pushAhead 0).mem.wf :=
  ⟨by decide, by decide, by decide, by decide⟩
/-- For the clause on a bad register index of every instruction statement. -/
theorem witness_badIndexClause : 7 < (8 : Byte).toNat ∧ (7 < (0 : Byte).toNat ∨ 7 < (255 : Byte).toNat) := by decide
/-- For PushStoresBelowStackPointer and PushThenPopRestoresRegisters: the lowest and the reset stack pointer. -/
theorem witness_pushStoresBelowStackPointer :
    ((with_ (at_ 0 []) 7 1).mem.wf ∧ 0 < (with_ (at_ 0 []) 7 1).sp.toNat ∧ pushAddress (with_ (at_ 0 []) 7 1) = (0 : Nat)) ∧
      State.reset.mem.wf ∧ 0 < State.reset.sp.toNat ∧ pushAddress State.reset = (254 : Nat) := by decide
/-- For PopLoadsFromStackPointer: the highest stack pointer, and register 7 with the highest loaded value. -/
theorem witness_popLoadsFromStackPointer :
    (with_ (at_ 0 []) 7 254).sp.toNat < 255 ∧
      ((with_ (at_ 200 [254]) 7 200).mem.read (with_ (at_ 200 [254]) 7 200).sp.toNat).toNat < 255 := by decide
theorem witness_modLeavesRemainder : (State.reset.reg 7).toNat ≠ 0 ∧ (State.reset.reg 1).toNat = 0 := by decide
theorem witness_aluWritesFirstOperandOnly :
    Instr.mod (regByte 0) 7 ∈ [Instr.shr (regByte 0) 7, .mod (regByte 0) 7] ∧ State.reset.fault = .none ∧
      (∃ t, exec (.mod (regByte 0) 7) State.reset = .next t ∧ t.fault = .none) ∧
      ∃ t, exec (.cmp 0 7) State.reset = .next t ∧ t.fault = .none :=
  ⟨by decide, rfl, ⟨_, rfl, rfl⟩, _, rfl, rfl⟩

end Sys2Proof.Tests
end

namespace Sys2Proof.Machine

open Config

/-! ### What an instruction answers is its effect -/

/-- Register operand bytes that all select registers make an instruction well formed. -/
theorem wellFormed_of_regOperands {i : Instr} (h : ∀ r ∈ i.regOperands, ∃ k : Fin 8, r = regByte k) :
    i.wellFormed = true := by
  rw [Instr.wellFormed, List.all_eq_true]
  intro r hr
  obtain ⟨k, rfl⟩ := h r hr
  rw [decide_eq_true_iff, regByte_toNat]
  omega

/-- The only effect of an instruction with a bad register index is AddressFault. -/
theorem Effect.eq_takeFault_of_not_wellFormed {i : Instr} {s t : State} (e : Effect i s t)
    (bad : i.wellFormed = false) : t = takeFault .address s := by
  have not_all : ¬ ∀ r ∈ i.regOperands, ∃ k : Fin 8, r = regByte k := fun h => by
    rw [wellFormed_of_regOperands h] at bad; cases bad
  cases e with
  | badIndex => rfl
  | _ => subst_vars; exact absurd (by simp [Instr.regOperands]) not_all

/-- An instruction with a bad register index raises AddressFault (R43, R86). -/
theorem exec_of_not_wellFormed {i : Instr} (bad : i.wellFormed = false) (s : State) :
    exec i s = .next (takeFault .address s) := by
  obtain ⟨t, ht, e⟩ := exec_effect i s
  rw [ht, e.eq_takeFault_of_not_wellFormed bad]

/-- An instruction has no effect but the one `exec` answers. -/
theorem Effect.exec_eq {i : Instr} {s t : State} (e : Effect i s t) : exec i s = .next t := by
  cases e with
  | badIndex bad => exact exec_of_not_wellFormed bad s
  | hlt h => exact h ▸ exec_hlt s
  | ldi k imm h => exact h ▸ exec_ldi k imm s
  | prn k h => exact h ▸ exec_prn k s
  | push k h room => exact h ▸ exec_push room
  | pushFull k h full => exact h ▸ exec_push_full full
  | pop k h room => exact h ▸ exec_pop room
  | popEmpty k h empty => exact h ▸ exec_pop_empty empty
  | mul a b h => exact h ▸ exec_mul a b s
  | and a b h => exact h ▸ exec_and a b s
  | or a b h => exact h ▸ exec_or a b s
  | xor a b h => exact h ▸ exec_xor a b s
  | shl a b h => exact h ▸ exec_shl a b s
  | shr a b h => exact h ▸ exec_shr a b s
  | not a unused h => exact h ▸ exec_not a unused s
  | mod a b h nonzero => exact h ▸ exec_mod nonzero
  | modZero a b h zero => exact h ▸ exec_mod_zero zero
  | cmp a b h => exact h ▸ exec_cmp a b s
  | jmp k h => exact h ▸ exec_jmp k s
  | jeq k h => exact h ▸ exec_jeq k s
  | jne k h => exact h ▸ exec_jne k s

/-- An instruction halts as HLT does, ends in a fault's entry, or leaves the run state and the fault register. -/
theorem Effect.status_cases {i : Instr} {s t : State} (e : Effect i s t) :
    (i = .hlt ∧ t = s.halt) ∨ (∃ c, t = takeFault c s) ∨ (i ≠ .hlt ∧ StatusKept s t) := by
  cases e with
  | hlt h => exact .inl ⟨h, rfl⟩
  | badIndex => exact .inr (.inl ⟨.address, rfl⟩)
  | pushFull | popEmpty => exact .inr (.inl ⟨.address, rfl⟩)
  | modZero => exact .inr (.inl ⟨.arithmetic, rfl⟩)
  | jeq k h | jne k h => refine .inr (.inr ⟨by simp [h], ?_⟩); split <;> exact ⟨rfl, rfl⟩
  | _ => subst_vars; exact .inr (.inr ⟨nofun, rfl, rfl⟩)

/-! ### The cycle in terms of what is executed or skipped -/

/-- A fetch decodes to one instruction. -/
theorem Executes.iff_eq {o : Opcodes} {s : State} {i j : Instr} (h : Executes o s i) :
    Executes o s j ↔ i = j := by
  obtain ⟨hr, hp, hi⟩ := executes_iff.1 h
  simp [executes_iff, hr, hp, hi]

/-- A byte that is none of the seventeen opcodes decodes to no instruction (R48). -/
theorem decodeFetched_of_not_mem {o : Opcodes} {op : Byte} (h : op ∉ o.bytes) (a b : Byte) :
    decodeFetched o op a b = .unrecognised op := by
  obtain ⟨row, hrow, rfl, -⟩ | ⟨-, hd⟩ := decodeFetched_cases o op a b
  · exact absurd (opcodeRows_opcodes o ▸ List.mem_map_of_mem hrow) h
  · exact hd

/-- A byte that decodes to no instruction is none of the seventeen opcodes (R48). -/
theorem not_mem_of_decodeFetched {o : Opcodes} {op a b op' : Byte}
    (h : decodeFetched o op a b = .unrecognised op') : op ∉ o.bytes := by
  obtain ⟨row, -, -, hd⟩ | ⟨hn, -⟩ := decodeFetched_cases o op a b
  · rw [hd] at h; cases h
  · exact hn

/-- A skipped opcode only moves `pc` on by 1 (R48). -/
theorem Skips.cycle_eq {o : Opcodes} {s : State} (h : Skips o s) : cycle o s = .next (s.advance 1) := by
  obtain ⟨hr, hp, hn⟩ := skips_iff.1 h
  rw [cycle_fetched hr hp, dispatchFetched, decodeFetched_of_not_mem hn]
  rfl

/-- A skipped opcode executes no instruction. -/
theorem Skips.not_executes {o : Opcodes} {s : State} (h : Skips o s) (i : Instr) : ¬ Executes o s i := by
  intro hi
  obtain ⟨-, -, hn⟩ := skips_iff.1 h
  obtain ⟨-, -, hd⟩ := executes_iff.1 hi
  rw [decodeFetched_of_not_mem hn] at hd
  cases hd

/-- The next states a cycle can answer, with when it answers each. -/
inductive CycleEffect (o : Opcodes) (s : State) : State → Prop where
  | halted : s.run = .halted → CycleEffect o s s
  | fetchFault : s.run = .running → 254 ≤ s.pc → CycleEffect o s (takeFault .address s)
  | executes {i t} : Executes o s i → Effect i s t → CycleEffect o s t
  | skips : Skips o s → CycleEffect o s (s.advance 1)

/-- What a cycle answered is one of its effects. -/
theorem cycleEffect_of_cycle {o : Opcodes} {s t : State} (h : cycle o s = .next t) : CycleEffect o s t := by
  obtain ⟨hr, hc⟩ | ⟨hr, hp, hc⟩ | ⟨hr, hp, ⟨i, hd, hc⟩ | ⟨⟨op, hd⟩, hc⟩⟩ := cycle_cases o s <;> rw [h] at hc
  · cases hc; exact .halted hr
  · cases hc; exact .fetchFault hr hp
  · exact .executes (executes_iff.2 ⟨hr, hp, hd⟩) (effect_of_exec hc.symm)
  · cases hc; exact .skips (skips_iff.2 ⟨hr, hp, not_mem_of_decodeFetched hd⟩)

/-- A step of a RUNNING machine halts it exactly by a HLT or by recording a fault (R14). -/
theorem cycle_halts_iff {o : Opcodes} {s t : State} (hr : s.run = .running) (hf : s.fault = .none)
    (h : cycle o s = .next t) : t.run = .halted ↔ Executes o s .hlt ∨ t.fault ≠ .none := by
  cases cycleEffect_of_cycle h with
  | halted hh => rw [hr] at hh; cases hh
  | fetchFault => simp [Cause.code_ne_none]
  | executes hi e =>
    obtain ⟨rfl, rfl⟩ | ⟨c, rfl⟩ | ⟨hne, hrun, hfault⟩ := e.status_cases
    · simp [hi]
    · simp [Cause.code_ne_none]
    · simp [hi.iff_eq, hne, hrun, hfault, hr, hf]
  | skips hs => simp [hs.not_executes, hr, hf]

/-! ### The flag (R13) -/

theorem cmpFlag_iff (a b : Byte) : cmpFlag a b = true ↔ a = b := by rw [cmpFlag, decide_eq_true_iff]

/-- No instruction but CMP writes the flag. -/
theorem Effect.fl_kept {i : Instr} {s t : State} (e : Effect i s t) (not_cmp : ∀ ra rb, i ≠ .cmp ra rb) :
    t.fl = s.fl := by
  cases e with
  | cmp a b h => exact absurd h (not_cmp _ _)
  | jeq | jne => split <;> rfl
  | _ => rfl

/-- No instruction but JEQ and JNE reads the flag: with another flag beforehand it has an effect that differs
in the flag alone. -/
theorem Effect.setFl {i : Instr} {s t : State} (e : Effect i s t) (not_cond : ∀ r, i ≠ .jeq r ∧ i ≠ .jne r)
    (b : Bool) : ∃ u, Effect i (s.setFl b) u ∧ u.setFl t.fl = t := by
  cases e with
  | badIndex bad => exact ⟨_, .badIndex bad, rfl⟩
  | hlt h => exact ⟨_, .hlt h, rfl⟩
  | ldi k imm h => exact ⟨_, .ldi k imm h, rfl⟩
  | prn k h => exact ⟨_, .prn k h, rfl⟩
  | push k h room => exact ⟨_, .push k h room, rfl⟩
  | pushFull k h full => exact ⟨_, .pushFull k h full, rfl⟩
  | pop k h room => exact ⟨_, .pop k h room, rfl⟩
  | popEmpty k h empty => exact ⟨_, .popEmpty k h empty, rfl⟩
  | mul ra rb h => exact ⟨_, .mul ra rb h, rfl⟩
  | and ra rb h => exact ⟨_, .and ra rb h, rfl⟩
  | or ra rb h => exact ⟨_, .or ra rb h, rfl⟩
  | xor ra rb h => exact ⟨_, .xor ra rb h, rfl⟩
  | shl ra rb h => exact ⟨_, .shl ra rb h, rfl⟩
  | shr ra rb h => exact ⟨_, .shr ra rb h, rfl⟩
  | not ra unused h => exact ⟨_, .not ra unused h, rfl⟩
  | mod ra rb h nonzero => exact ⟨_, .mod ra rb h nonzero, rfl⟩
  | modZero ra rb h zero => exact ⟨_, .modZero ra rb h zero, rfl⟩
  | cmp ra rb h => exact ⟨_, .cmp ra rb h, rfl⟩
  | jmp k h => exact ⟨_, .jmp k h, rfl⟩
  | jeq k h => exact absurd h (not_cond _).1
  | jne k h => exact absurd h (not_cond _).2

/-- Whether an opcode is skipped does not depend on the flag. -/
theorem Skips.setFl {o : Opcodes} {s : State} (h : Skips o s) (b : Bool) : Skips o (s.setFl b) := by
  obtain ⟨hr, hp, hn⟩ := skips_iff.1 h
  exact skips_iff.2 ⟨hr, hp, hn⟩

/-! ### The state's obligations -/

/-- Settles O1: the four values of R20 are `State.reset`'s own. -/
theorem resetLeavesSourceValues : Obligations.ResetLeavesSourceValues := ⟨rfl, rfl, rfl, rfl⟩

/-- Settles O23, by the cases of one cycle and what an instruction can do to `run` and `fault`. -/
theorem haltedOnlyByHltOrFault : Obligations.HaltedOnlyByHltOrFault := by
  refine ⟨fun o s t => cycle_halts_iff, fun o s t hr h => ?_, rfl⟩
  rw [cycle_halted hr] at h
  exact (Host.Outcome.next.inj h).symm

/-- Settles O28, by the flag each effect writes and the effect each instruction has under another flag. -/
theorem flagWrittenByCmpReadByJumps : Obligations.FlagWrittenByCmpReadByJumps := by
  refine ⟨fun a b s t h => ?_, fun i s t not_cmp h => (effect_of_exec h).fl_kept not_cmp,
    fun i s t b not_cond h => ?_, fun o s t b hs h => ?_, rfl⟩
  · rw [exec_cmp] at h
    obtain rfl := Host.Outcome.next.inj h
    exact cmpFlag_iff _ _
  · obtain ⟨u, e, hu⟩ := (effect_of_exec h).setFl not_cond b
    exact ⟨u, e.exec_eq, hu⟩
  · rw [hs.cycle_eq] at h
    obtain rfl := Host.Outcome.next.inj h
    exact ⟨rfl, (hs.setFl b).cycle_eq⟩

end Sys2Proof.Machine

namespace Sys2Proof.Machine

/-! ### The memory port (R26) -/

/-- A read after a write into a canonical memory: the written byte at its address, every other as before. -/
theorem memRead_setMem_write {s : State} (canonical : s.mem.wf) (a : Nat) (v : Byte) {c : Nat} (hc : c < 256) :
    memRead (s.setMem (s.mem.write a v)) c = if c = a then .ok v else memRead s c := by
  rw [memRead_inside _ hc, memRead_inside s hc, State.setMem_mem, Memory.read_write canonical]
  split <;> rfl

/-- Settles O6: the write succeeds inside memory, and a read after it follows `memRead_setMem_write`. -/
theorem memoryPortReadsLastWrite : Obligations.MemoryPortReadsLastWrite := by
  intro s a v canonical ha
  have inside : a < 256 := Nat.lt_succ_of_le ha
  refine ⟨_, memWrite_inside s inside v, ?_, fun c hc hne => ?_, rfl⟩
  · rw [memRead_setMem_write canonical a v inside, if_pos rfl]
  · rw [memRead_setMem_write canonical a v (Nat.lt_succ_of_le hc), if_neg hne]

end Sys2Proof.Machine

namespace Sys2Proof

open Config

/-! ### The source's opcode bytes (R45) -/

/-- Decoding against a list of rows stops at a first row with the fetched opcode. -/
theorem decodeRows_cons_same (row : OpcodeRow) (rows : List OpcodeRow) (a b : Byte) :
    decodeRows row.opcode a b (row :: rows) = .instr (row.build a b) := by
  rw [decodeRows, if_pos rfl]

/-- Decoding against a list of rows passes over a first row with another opcode. -/
theorem decodeRows_cons_ne {op : Byte} {row : OpcodeRow} (other : op ≠ row.opcode) (rows : List OpcodeRow)
    (a b : Byte) : decodeRows op a b (row :: rows) = decodeRows op a b rows := by
  rw [decodeRows, if_neg other]

theorem decodeFetched_opcHlt (o : Opcodes) (a b : Byte) : decodeFetched o opcHlt a b = .instr .hlt :=
  decodeRows_cons_same ⟨opcHlt, fun _ _ => .hlt⟩ _ a b

theorem decodeFetched_opcLdi (o : Opcodes) (a b : Byte) : decodeFetched o opcLdi a b = .instr (.ldi a b) := by
  have not_hlt : opcLdi ≠ opcHlt := by decide
  rw [decodeFetched, opcodeRows, decodeRows_cons_ne not_hlt]
  exact decodeRows_cons_same ⟨opcLdi, fun a b => .ldi a b⟩ _ a b

theorem decodeFetched_opcPrn (o : Opcodes) (a b : Byte) : decodeFetched o opcPrn a b = .instr (.prn a) := by
  have not_hlt : opcPrn ≠ opcHlt := by decide
  have not_ldi : opcPrn ≠ opcLdi := by decide
  rw [decodeFetched, opcodeRows, decodeRows_cons_ne not_hlt, decodeRows_cons_ne not_ldi]
  exact decodeRows_cons_same ⟨opcPrn, fun a _ => .prn a⟩ _ a b

/-- Settles O9: the source's three rows stand before those of the fourteen open opcode bytes, so whether these
are legal does not matter. -/
theorem sourceOpcodesDecode : Obligations.SourceOpcodesDecode := fun o a b =>
  ⟨decodeFetched_opcLdi o a b, decodeFetched_opcPrn o a b, decodeFetched_opcHlt o a b⟩

end Sys2Proof

namespace Sys2Proof.Machine

/-! ### A result written to one register (R61) -/

/-- Writing a register and moving `pc` on makes the register read as written and leaves everything else. -/
theorem setReg_advance_frame (s : State) (k : Fin 8) (v : Byte) (n : Nat) :
    ((s.setReg k v).advance n).reg k = v ∧ RegsKept s ((s.setReg k v).advance n) [k] ∧
      ((s.setReg k v).advance n).pc = s.pc + n ∧ MemKept s ((s.setReg k v).advance n) ∧
      OthersKept s ((s.setReg k v).advance n) := by
  refine ⟨by simp, fun j hj => ?_, rfl, fun _ => rfl, rfl, ⟨rfl, rfl⟩, rfl⟩
  have other : j ≠ k := List.ne_of_not_mem_cons hj
  rw [State.advance_reg, State.setReg_reg, if_neg other]

/-- A register operand byte above 7 makes an instruction raise AddressFault (R43). -/
theorem exec_of_bad_regOperand {i : Instr} {r : Byte} (operand : r ∈ i.regOperands) (bad : 7 < r.toNat)
    (s : State) : exec i s = .next (addressFaulted s) :=
  exec_of_not_wellFormed (wellFormed_bad operand bad) s

/-- Settles O35: LDI is one register write, whose frame is `setReg_advance_frame`; its first operand byte is its
only register operand. -/
theorem ldiLoadsImmediate : Obligations.LdiLoadsImmediate :=
  ⟨fun k imm s => ⟨_, exec_ldi k imm s, setReg_advance_frame s k imm 3⟩,
    fun _ _ s bad => exec_of_bad_regOperand List.mem_cons_self bad s⟩

end Sys2Proof.Machine

namespace Sys2Proof.Machine

/-! ### ALU results and their common frame (R67 to R71) -/

/-- An instruction that answers one register write and moves `pc` on has whatever property the written value
has, and leaves everything else. -/
theorem exec_register_write {i : Instr} {s : State} {k : Fin 8} {v : Byte} {n : Nat} (P : Byte → Prop)
    (answer : exec i s = .next ((s.setReg k v).advance n)) (value : P v) :
    ∃ t, exec i s = .next t ∧ P (t.reg k) ∧ RegsKept s t [k] ∧ t.pc = s.pc + n ∧ MemKept s t ∧
      OthersKept s t := by
  obtain ⟨written, frame⟩ := setReg_advance_frame s k v n
  exact ⟨_, answer, written.symm ▸ value, frame⟩

/-- A bad index in either operand of format RR raises AddressFault (R43, R67). -/
theorem exec_of_bad_regOperands {i : Instr} {ra rb : Byte} (operands : i.regOperands = [ra, rb])
    (bad : 7 < ra.toNat ∨ 7 < rb.toNat) (s : State) : exec i s = .next (addressFaulted s) := by
  obtain first | second := bad
  · exact exec_of_bad_regOperand (by simp [operands]) first s
  · exact exec_of_bad_regOperand (by simp [operands]) second s

theorem aluMul_toNat (a b : Byte) : (aluMul a b).toNat = a.toNat * b.toNat % 256 := BitVec.toNat_ofNat _ 8

theorem aluAnd_getLsbD (a b : Byte) (n : Nat) : (aluAnd a b).getLsbD n = (a.getLsbD n && b.getLsbD n) :=
  BitVec.getLsbD_and

theorem aluOr_getLsbD (a b : Byte) (n : Nat) : (aluOr a b).getLsbD n = (a.getLsbD n || b.getLsbD n) :=
  BitVec.getLsbD_or

theorem aluXor_getLsbD (a b : Byte) (n : Nat) : (aluXor a b).getLsbD n = (a.getLsbD n != b.getLsbD n) :=
  BitVec.getLsbD_xor

/-- Settles O41: MUL is one register write, of the value `aluMul_toNat` gives. -/
theorem mulKeepsLowByte : Obligations.MulKeepsLowByte :=
  ⟨fun a b s => exec_register_write (fun v => v.toNat = (s.reg a).toNat * (s.reg b).toNat % 256)
      (exec_mul a b s) (aluMul_toNat _ _),
    fun _ _ s bad => exec_of_bad_regOperands rfl bad s⟩

/-- Settles O42: each of the three is one register write, of the value its `getLsbD` lemma gives bit by bit. -/
theorem bitwiseOperationsByBit : Obligations.BitwiseOperationsByBit := by
  refine ⟨fun a b s => ⟨?_, ?_, ?_⟩, fun ra rb s bad => ⟨?_, ?_, ?_⟩⟩
  · exact exec_register_write (fun v => ∀ n < 8, v.getLsbD n = ((s.reg a).getLsbD n && (s.reg b).getLsbD n))
      (exec_and a b s) fun n _ => aluAnd_getLsbD _ _ n
  · exact exec_register_write (fun v => ∀ n < 8, v.getLsbD n = ((s.reg a).getLsbD n || (s.reg b).getLsbD n))
      (exec_or a b s) fun n _ => aluOr_getLsbD _ _ n
  · exact exec_register_write (fun v => ∀ n < 8, v.getLsbD n = ((s.reg a).getLsbD n != (s.reg b).getLsbD n))
      (exec_xor a b s) fun n _ => aluXor_getLsbD _ _ n
  all_goals exact exec_of_bad_regOperands rfl bad s

/-! ### CMP (R76) -/

/-- Setting the flag and moving `pc` on leaves everything else. -/
theorem setFl_advance_frame (s : State) (b : Bool) (n : Nat) :
    RegsKept s ((s.setFl b).advance n) [] ∧ ((s.setFl b).advance n).pc = s.pc + n ∧
      MemKept s ((s.setFl b).advance n) ∧ StatusKept s ((s.setFl b).advance n) ∧
      ((s.setFl b).advance n).out = s.out :=
  ⟨fun _ _ => rfl, rfl, fun _ => rfl, ⟨rfl, rfl⟩, rfl⟩

/-- Settles O47: the flag CMP writes is `cmpFlag`, whose equality of bytes is one of their unsigned values. -/
theorem cmpSetsFlagOnEquality : Obligations.CmpSetsFlagOnEquality :=
  ⟨fun a b s => ⟨_, exec_cmp a b s, (cmpFlag_iff _ _).trans BitVec.toNat_inj.symm, setFl_advance_frame s _ 3⟩,
    fun _ _ s bad => exec_of_bad_regOperands rfl bad s⟩

end Sys2Proof.Machine

namespace Sys2Proof.Machine

/-! ### JMP (R79) -/

/-- Settles O49: JMP only moves `pc`, by `exec_jmp`, and its operand byte is a register operand. -/
theorem jmpJumpsToRegister : Obligations.JmpJumpsToRegister :=
  ⟨exec_jmp, fun _ s bad => exec_of_bad_regOperand List.mem_cons_self bad s⟩

end Sys2Proof.Machine

namespace Sys2Proof.Machine

open Config

/-! ### ArithmeticFault (R84) -/

/-- The only effect that records ArithmeticFault is that of a MOD by zero, and it is the fault's entry. -/
theorem Effect.modZero_of_arith {i : Instr} {s t : State} (e : Effect i s t) (before : s.fault ≠ .arith)
    (after : t.fault = .arith) :
    (∃ a b : Fin 8, i = .mod (regByte a) (regByte b) ∧ (s.reg b).toNat = 0) ∧ t = arithmeticFaulted s := by
  cases e with
  | modZero a b h zero => exact ⟨⟨a, b, h, zero⟩, rfl⟩
  | badIndex | pushFull | popEmpty => cases after
  | jeq | jne => split at after <;> exact absurd after before
  | _ => exact absurd after before

/-- A cycle that records ArithmeticFault executes a MOD by zero, and is the fault's entry. -/
theorem modZero_of_cycle_arith {o : Opcodes} {s t : State} (h : cycle o s = .next t) (before : s.fault ≠ .arith)
    (after : t.fault = .arith) :
    (∃ a b : Fin 8, Executes o s (.mod (regByte a) (regByte b)) ∧ (s.reg b).toNat = 0) ∧
      t = arithmeticFaulted s := by
  cases cycleEffect_of_cycle h with
  | halted | skips => exact absurd after before
  | fetchFault => cases after
  | executes hi e =>
    obtain ⟨⟨a, b, rfl, zero⟩, ht⟩ := e.modZero_of_arith before after
    exact ⟨⟨a, b, hi, zero⟩, ht⟩

/-- The cycle of a fetch that decodes to an instruction is that instruction's execute part (R59). -/
theorem Executes.cycle_eq {o : Opcodes} {s : State} {i : Instr} (h : Executes o s i) : cycle o s = exec i s := by
  obtain ⟨hr, hp, hd⟩ := executes_iff.1 h
  rw [cycle_fetched hr hp, dispatchFetched, hd]

/-- Settles O25: one direction by what every effect records, the other by `exec_mod_zero`. -/
theorem arithmeticFaultExactlyOnModByZero : Obligations.ArithmeticFaultExactlyOnModByZero := by
  intro o s t _ hf h
  have before : s.fault ≠ .arith := by rw [hf]; decide
  refine ⟨⟨fun after => (modZero_of_cycle_arith h before after).1, ?_⟩,
    fun after => (modZero_of_cycle_arith h before after).2⟩
  rintro ⟨a, b, hi, zero⟩
  rw [hi.cycle_eq, exec_mod_zero zero] at h
  obtain rfl := Host.Outcome.next.inj h
  rfl

end Sys2Proof.Machine

namespace Sys2Proof.Machine

open Config

/-! ### Loading a program (R100) -/

/-- A program that fits in memory loads: the state after reset, with the program placed from address 0 (R100). -/
theorem load_of_length_le {program : List Byte} (fits : program.length ≤ memSize) :
    load program = some (State.reset.setMem (Memory.place [] 0 program)) := if_pos fits

/-- A program placed from address 0 of empty memory is read back: byte `k` of it at address `k` (R100). -/
theorem Memory.read_place_zero {program : List Byte} (fits : program.length ≤ memSize) {k : Nat} {v : Byte}
    (byte : program[k]? = some v) : (Memory.place [] 0 program).read k = v := by
  rw [Memory.read_place Memory.nil_wf program (by omega), if_pos k.zero_le, Nat.sub_zero, byte, Option.getD_some]

/-- A fetch inside memory reads as the opcode the byte at `pc` (R54). -/
theorem fetch_reads_opcode {s : State} (inside : s.pc ≤ 253) {v : Byte} (opcode : s.mem.read s.pc = v) :
    ∃ a b, fetch s = .ok (v, a, b) := ⟨_, _, opcode ▸ fetch_inside inside⟩

/-- Settles O3: `load_of_length_le` gives the state, `Memory.read_place_zero` each of its program bytes, the fetched
opcode among them. -/
theorem loadPlacesProgramFromZero : Obligations.LoadPlacesProgramFromZero := by
  intro program fits
  refine ⟨_, load_of_length_le fits, fun k v byte => ?_, rfl, rfl, fun v first => ?_⟩
  · exact Memory.read_place_zero fits byte
  · exact fetch_reads_opcode (Nat.zero_le 253) (Memory.read_place_zero fits first)

end Sys2Proof.Machine

namespace Sys2Proof

open Config

/-! ### Decoding and encoding (R40 to R55) -/

/-- A list of bytes decodes to an instruction exactly when its first three bytes, fetched, decode to it. -/
theorem decode_eq_ok_iff {o : Opcodes} {bytes : List Byte} {i : Instr} :
    decode o bytes = .ok i ↔
      ∃ op a b tail, bytes = op :: a :: b :: tail ∧ decodeFetched o op a b = .instr i := by
  match bytes with
  | [] | [_] | [_, _] => simp [decode]
  | op :: a :: b :: tail =>
    rw [decode]
    cases hd : decodeFetched o op a b <;> simp [hd]

/-- A row's instruction is encoded as the row's opcode and those of the two operand bytes that its format has. -/
theorem row_begins_with_encode {o : Opcodes} {row : OpcodeRow} (hrow : row ∈ opcodeRows o) (a b : Byte)
    (tail : List Byte) : encode o (row.build a b) <+: row.opcode :: a :: b :: tail := by
  revert row
  simp [opcodeRows, encode]

/-- Settles O11: the encoding is a row's opcode and operand bytes (`encode_row`), and with legal opcode bytes
these decode to that row (`decodeFetched_of_mem`). -/
theorem decodeOfEncode : Obligations.DecodeOfEncode := by
  intro o i rest legal long
  obtain ⟨row, hrow, a, b, tail, bytes, build⟩ := encode_row o i rest long
  exact decode_eq_ok_iff.2 ⟨_, a, b, tail, bytes, build ▸ decodeFetched_of_mem legal hrow a b⟩

/-- Settles O12: what decodes is a row's opcode with two bytes, which begin with the row's encoding. -/
theorem encodeOfDecode : Obligations.EncodeOfDecode := by
  intro o bytes i h
  obtain ⟨op, a, b, tail, rfl, hd⟩ := decode_eq_ok_iff.1 h
  obtain ⟨row, hrow, rfl, hrowd⟩ | ⟨-, hn⟩ := decodeFetched_cases o op a b
  · obtain rfl := Decoded.instr.inj (hrowd.symm.trans hd)
    exact row_begins_with_encode hrow a b tail
  · cases hn.symm.trans hd

/-- Settles O13, by the two directions of `decodeFetched_cases`. -/
theorem unrecognisedExactlyOutsideMap : Obligations.UnrecognisedExactlyOutsideMap := fun _ _ a b =>
  ⟨Machine.not_mem_of_decodeFetched, fun h => Machine.decodeFetched_of_not_mem h a b⟩

/-- Settles O10: five closed evaluations of the decoder. -/
theorem defaultWordsDecode : Obligations.DefaultWordsDecode :=
  ⟨by decide, by decide, by decide, by decide, by decide⟩

end Sys2Proof

namespace Sys2Proof.Machine

open Config

/-! ### How an instruction that completes differs from one that faults -/

/-- The register a well-formed operand byte names in `nextPc`. -/
theorem ofNat_regByte (k : Fin 8) : Fin.ofNat 8 (regByte k).toNat = k := by revert k; decide

/-- An instruction ends in a fault's entry, or it leaves the fault register and moves `pc` as the table says
(R57). -/
theorem Effect.faults_or_completes {i : Instr} {s t : State} (e : Effect i s t) :
    (∃ c, t = takeFault c s) ∨ (t.fault = s.fault ∧ t.pc = nextPc s i) := by
  cases e with
  | badIndex | pushFull | popEmpty => exact .inl ⟨.address, rfl⟩
  | modZero => exact .inl ⟨.arithmetic, rfl⟩
  | jmp k h => subst h; exact .inr ⟨rfl, by rw [nextPc, ofNat_regByte]; rfl⟩
  | jeq k h | jne k h =>
    subst h
    rw [nextPc, ofNat_regByte]
    refine .inr ?_
    split <;> exact ⟨rfl, rfl⟩
  | _ => subst_vars; exact .inr ⟨rfl, rfl⟩

/-- An instruction leaves memory, or is a PUSH with room that stores one byte below the stack pointer (R28). -/
theorem Effect.mem_cases {i : Instr} {s t : State} (e : Effect i s t) :
    t.mem = s.mem ∨ ∃ (k : Fin 8) (v : Byte), i = .push (regByte k) ∧ 0 < s.sp.toNat ∧
      t.mem = s.mem.write (s.sp.toNat - 1) v := by
  cases e with
  | push k h room => exact .inr ⟨k, _, h, room, rfl⟩
  | jeq | jne => refine .inl ?_; split <;> rfl
  | _ => exact .inl rfl

/-- An instruction that could be fetched leaves a `pc` of at most 256 (R12). -/
theorem nextPc_le (s : State) (fetched : s.pc ≤ 253) (i : Instr) : nextPc s i ≤ 256 := by
  have register (k : Fin 8) : (s.reg k).toNat ≤ 256 := (s.reg k).isLt.le
  cases i with
  | jmp r => exact register _
  | jeq r =>
    rw [nextPc]; split
    · exact register _
    · omega
  | jne r =>
    rw [nextPc]; split
    · omega
    · exact register _
  | _ => rw [nextPc]; omega

/-! ### The invariant -/

/-- An instruction that could be fetched keeps the invariant. -/
theorem Effect.keeps_inv {i : Instr} {s t : State} (e : Effect i s t) (inv : Inv s) (fetched : s.pc ≤ 253) :
    Inv t where
  memCanonical := by
    obtain h | ⟨k, v, -, -, h⟩ := e.mem_cases <;> rw [h]
    · exact inv.memCanonical
    · exact Memory.write_wf inv.memCanonical ((Nat.sub_le _ _).trans_lt s.sp.isLt) v
  pcInRange := by
    obtain ⟨c, rfl⟩ | ⟨-, h⟩ := e.faults_or_completes
    · exact inv.pcInRange
    · exact h ▸ nextPc_le s fetched i
  faultHalts := by
    obtain ⟨-, rfl⟩ | ⟨c, rfl⟩ | ⟨-, run, fault⟩ := e.status_cases
    · exact fun _ => rfl
    · exact fun _ => rfl
    · rw [run, fault]; exact inv.faultHalts

/-- Every cycle keeps the invariant. -/
theorem cycle_keeps_inv {o : Opcodes} {s t : State} (inv : Inv s) (h : cycle o s = .next t) : Inv t := by
  cases cycleEffect_of_cycle h with
  | halted => exact inv
  | fetchFault => exact ⟨inv.memCanonical, inv.pcInRange, fun _ => rfl⟩
  | executes hi e => exact e.keeps_inv inv (executes_iff.1 hi).2.1
  | skips hs =>
    have fetched : s.pc ≤ 253 := (skips_iff.1 hs).2.1
    exact ⟨inv.memCanonical, show s.pc + 1 ≤ 256 by omega, inv.faultHalts⟩

/-- Settles O19: the cycle keeps the invariant for every choice of the opcode bytes, the machine's own included. -/
theorem stepKeepsInvariant : Obligations.StepKeepsInvariant :=
  ⟨fun _ _ _ => cycle_keeps_inv, fun _ _ => cycle_keeps_inv⟩

/-- Settles O20: reset's memory is empty, its `pc` 0 and its fault register `FAULT_NONE`. -/
theorem resetMeetsInvariant : Obligations.ResetMeetsInvariant :=
  ⟨Memory.nil_wf, Nat.zero_le 256, fun h => absurd rfl h⟩

/-! ### Runs -/

/-- Every cycle answers a next state. -/
theorem cycle_answers (o : Opcodes) (s : State) : ∃ t, cycle o s = .next t := by
  obtain ⟨-, h⟩ | ⟨-, -, h⟩ | ⟨-, -, ⟨i, -, h⟩ | ⟨-, h⟩⟩ := cycle_cases o s
  · exact ⟨_, h⟩
  · exact ⟨_, h⟩
  · obtain ⟨t, ht, -⟩ := exec_effect i s
    exact ⟨t, h.trans ht⟩
  · exact ⟨_, h⟩

/-- Settles O18: `cycle_answers`. -/
theorem everyStepAnswersNextState : Obligations.EveryStepAnswersNextState := cycle_answers

/-- Settles O17, by induction on the number of steps, each answering the HALTED state itself. -/
theorem haltedDoesNothingForEver : Obligations.HaltedDoesNothingForEver := by
  intro s k halted
  induction k with
  | zero => exact run_zero s
  | succ k ih => rw [run_succ k (cycle_halted halted), ih]

/-- Every run keeps the invariant. -/
theorem run_keeps_inv {s t : State} {k : Nat} (inv : Inv s) (h : core.run k s = .next t) : Inv t := by
  induction k generalizing s with
  | zero =>
    obtain rfl := Host.Outcome.next.inj h
    exact inv
  | succ k ih =>
    obtain ⟨u, hu⟩ := cycle_answers defaultOpcodes s
    rw [run_succ k hu] at h
    exact ih (cycle_keeps_inv inv hu) h

/-! ### Loading: the rest of the state (R99, R103) -/

/-- A program loads exactly when it fits in memory, into the state `load_of_length_le` gives. -/
theorem load_eq_some_iff {program : List Byte} {s : State} :
    load program = some s ↔
      program.length ≤ memSize ∧ State.reset.setMem (Memory.place [] 0 program) = s := by
  rw [load, Option.ite_none_right_eq_some, Option.some_inj]

/-- A program does not load exactly when it is longer than memory (R103). -/
theorem load_eq_none_iff {program : List Byte} : load program = none ↔ 256 < program.length := by
  rw [load, ite_eq_right_iff, ← not_le]
  exact ⟨fun h fits => Option.some_ne_none _ (h fits), fun h fits => absurd fits h⟩

/-- Past a program placed from address 0 of empty memory every cell holds the fill value (R23). -/
theorem Memory.read_place_past {program : List Byte} (fits : program.length ≤ memSize) {a : Nat}
    (past : program.length ≤ a) : (Memory.place [] 0 program).read a = memFill := by
  rw [Memory.read_place Memory.nil_wf program (by omega), if_pos a.zero_le, Nat.sub_zero,
    List.getElem?_eq_none past, Option.getD_none, Memory.read_nil]

/-- Settles O4: `load` gives reset with the placed program as its memory, or nothing. -/
theorem loadKeepsResetAndRefusesTooLong : Obligations.LoadKeepsResetAndRefusesTooLong := by
  refine ⟨fun program s h => ?_, fun _ => load_eq_none_iff⟩
  obtain ⟨fits, rfl⟩ := load_eq_some_iff.1 h
  exact ⟨fun a => Memory.read_place_past fits, fun _ => rfl, rfl, rfl, rfl⟩

/-- The state a program loads into meets the invariant. -/
theorem load_meets_inv {program : List Byte} {s : State} (h : load program = some s) : Inv s := by
  obtain ⟨fits, rfl⟩ := load_eq_some_iff.1 h
  exact ⟨Memory.place_wf Memory.nil_wf program (by omega), Nat.zero_le 256, fun h => absurd rfl h⟩

/-- Settles O21: loading meets the invariant and every run keeps it. -/
theorem everyRunStaysInRange : Obligations.EveryRunStaysInRange := by
  intro program s t k loaded run
  obtain ⟨canonical, range, halts⟩ := run_keeps_inv (load_meets_inv loaded) run
  exact ⟨range, canonical, halts⟩

/-- Settles O2: each value is `State.reset`'s own, registers 0 to 6 one by one. -/
theorem resetLeavesChosenValues : Obligations.ResetLeavesChosenValues :=
  ⟨by decide, fun _ => rfl, rfl, rfl⟩

end Sys2Proof.Machine

namespace Sys2Proof.Machine

open Config

/-! ### The step (R48, R53 to R59) -/

/-- Settles O14: the three bytes at `pc` are the fetched ones, and `Executes.cycle_eq`. -/
theorem stepRunsDecodedInstruction : Obligations.StepRunsDecodedInstruction := by
  have runs (o : Opcodes) (s : State) (i : Instr) (running : s.run = .running) (inside : s.pc ≤ 253)
      (h : decode o [s.mem.read s.pc, s.mem.read (s.pc + 1), s.mem.read (s.pc + 2)] = .ok i) :
      cycle o s = exec i s := by
    obtain ⟨_, _, _, _, ⟨⟩, hd⟩ := decode_eq_ok_iff.1 h
    exact (executes_iff.2 ⟨running, inside, hd⟩).cycle_eq
  exact ⟨runs, runs defaultOpcodes⟩

/-- Settles O15: `cycle_fetchFault`. -/
theorem fetchPastTopFaults : Obligations.FetchPastTopFaults := fun _ _ => cycle_fetchFault

/-- Settles O16: the opcode is skipped, which only advances `pc`. -/
theorem unrecognisedOpcodeOnlyAdvances : Obligations.UnrecognisedOpcodeOnlyAdvances :=
  fun _ _ running inside unknown => (skips_iff.2 ⟨running, inside, unknown⟩).cycle_eq

/-- Settles O32: an executed instruction faults, with `pc` kept, or moves `pc` as the table says. -/
theorem pcFollowsTable : Obligations.PcFollowsTable := by
  intro o s t i hi hf h
  rw [hi.cycle_eq] at h
  obtain ⟨c, rfl⟩ | ⟨fault, pc⟩ := (effect_of_exec h).faults_or_completes
  · exact ⟨fun clean => absurd clean c.code_ne_none, fun _ => rfl⟩
  · exact ⟨fun _ => pc, fun faults => absurd (fault.trans hf) faults⟩

/-! ### Fault entry and the end of a run (R8, R83 to R91) -/

/-- A cycle is a fault's entry, or leaves the fault register. -/
theorem cycle_faults_or_keeps {o : Opcodes} {s t : State} (h : cycle o s = .next t) :
    (∃ c, t = takeFault c s) ∨ t.fault = s.fault := by
  cases cycleEffect_of_cycle h with
  | halted | skips => exact .inr rfl
  | fetchFault => exact .inl ⟨.address, rfl⟩
  | executes _ e => exact e.faults_or_completes.imp_right And.left

/-- Settles O22: a cycle that records a fault is that fault's entry. -/
theorem faultEntryIsPrecise : Obligations.FaultEntryIsPrecise := by
  intro o s t _ hf h faults
  obtain ⟨c, rfl⟩ | kept := cycle_faults_or_keeps h
  · rfl
  · exact absurd (kept.trans hf) faults

/-- Settles O24: of the two ways to be halted (`cycle_halts_iff`) HLT records no fault. -/
theorem normalEndExactlyByHlt : Obligations.NormalEndExactlyByHlt := by
  intro o s t hr hf h
  have halts := cycle_halts_iff hr hf h
  refine ⟨⟨fun ⟨run, clean⟩ => (halts.1 run).resolve_right (absurd clean), fun hlt => ?_⟩,
    And.right, fun faults => ⟨halts.2 (.inr faults), faults⟩⟩
  rw [hlt.cycle_eq, exec_hlt] at h
  obtain rfl := Host.Outcome.next.inj h
  exact ⟨rfl, hf⟩

/-! ### AddressFault (R85 to R87) -/

/-- The only effects that record AddressFault are those of a bad index and of the stack's edges, and each is the
fault's entry. -/
theorem Effect.address_causes {i : Instr} {s t : State} (e : Effect i s t) (before : s.fault ≠ .addr)
    (after : t.fault = .addr) :
    (i.wellFormed = false ∨ (∃ k : Fin 8, i = .push (regByte k) ∧ s.sp.toNat = 0) ∨
      ∃ k : Fin 8, i = .pop (regByte k) ∧ (popBase k s).toNat = 255) ∧ t = addressFaulted s := by
  cases e with
  | badIndex bad => exact ⟨.inl bad, rfl⟩
  | pushFull k h full => exact ⟨.inr (.inl ⟨k, h, full⟩), rfl⟩
  | popEmpty k h empty => exact ⟨.inr (.inr ⟨k, h, empty⟩), rfl⟩
  | modZero => cases after
  | jeq | jne => split at after <;> exact absurd after before
  | _ => exact absurd after before

/-- Settles O26: one direction by what every effect records, the other by the answer of each cause. -/
theorem addressFaultExactlyWhereListed : Obligations.AddressFaultExactlyWhereListed := by
  intro o s t hr hf h
  have before : s.fault ≠ .addr := by rw [hf]; decide
  have faulted (answer : cycle o s = .next (takeFault .address s)) : t.fault = .addr := by
    obtain rfl := Host.Outcome.next.inj (h.symm.trans answer)
    rfl
  refine ⟨⟨fun after => ?_, ?_⟩, fun after => ?_⟩
  · cases cycleEffect_of_cycle h with
    | halted | skips => exact absurd after before
    | fetchFault _ top => exact .inl top
    | executes hi e =>
      obtain ⟨bad | ⟨k, rfl, full⟩ | ⟨k, rfl, empty⟩, -⟩ := e.address_causes before after
      · exact .inr (.inl ⟨_, hi, bad⟩)
      · exact .inr (.inr (.inl ⟨k, hi, full⟩))
      · exact .inr (.inr (.inr ⟨k, hi, empty⟩))
  · rintro (top | ⟨i, hi, bad⟩ | ⟨k, hi, full⟩ | ⟨k, hi, empty⟩)
    · exact faulted (cycle_fetchFault hr top)
    · exact faulted (hi.cycle_eq.trans (exec_of_not_wellFormed bad s))
    · exact faulted (hi.cycle_eq.trans (exec_push_full full))
    · exact faulted (hi.cycle_eq.trans (exec_pop_empty empty))
  · obtain ⟨c, rfl⟩ | kept := cycle_faults_or_keeps h
    · cases c with
      | arithmetic => cases after
      | address => rfl
    · exact absurd (kept.symm.trans after) before

/-- Settles O27: the listed bytes are register operands, so `wellFormed_bad`; HLT, NOT and a skipped opcode by
their own answers. -/
theorem badRegisterIndexFaults : Obligations.BadRegisterIndexFaults := by
  refine ⟨fun i s bad => exec_of_not_wellFormed bad s, fun r x bad i listed => ?_,
    fun s => ⟨_, exec_hlt s, rfl⟩, fun a x s => ⟨_, exec_not a x s, rfl, rfl⟩,
    fun o s skipped => ⟨_, skipped.cycle_eq, rfl, rfl⟩⟩
  have operand : r ∈ i.regOperands := by
    revert i
    simp [Instr.regOperands]
  exact wellFormed_bad operand bad

/-! ### The output channel (R17) -/

/-- An instruction appends one register to the output if it is a PRN of that register, and else leaves it. -/
theorem Effect.out_cases {i : Instr} {s t : State} (e : Effect i s t) :
    (t.out = s.out ∧ ∀ k : Fin 8, i ≠ .prn (regByte k)) ∨
      ∃ k : Fin 8, i = .prn (regByte k) ∧ t.out = s.out ++ [s.reg k] := by
  cases e with
  | prn k h => exact .inr ⟨k, h, rfl⟩
  | badIndex bad =>
    refine .inl ⟨rfl, fun k h => ?_⟩
    rw [h, wellFormed_of_regOperands (by simp [Instr.regOperands])] at bad
    cases bad
  | jeq k h | jne k h => refine .inl ⟨?_, by simp [h]⟩; split <;> rfl
  | _ => subst_vars; exact .inl ⟨rfl, nofun⟩

/-- Settles O29: an executed instruction by `Effect.out_cases`; no other cycle executes one or emits. -/
theorem outputGrowsOnlyByPrn : Obligations.OutputGrowsOnlyByPrn := by
  intro o s t h
  cases cycleEffect_of_cycle h with
  | halted halted => exact .inl ⟨rfl, fun k ⟨running, _⟩ => by rw [halted] at running; cases running⟩
  | fetchFault _ top => exact .inl ⟨rfl, fun k hi => by have := (executes_iff.1 hi).2.1; omega⟩
  | skips hs => exact .inl ⟨rfl, fun k => hs.not_executes _⟩
  | executes hi e =>
    obtain ⟨out, not_prn⟩ | ⟨k, rfl, out⟩ := e.out_cases
    · exact .inl ⟨out, fun k => hi.iff_eq.not.2 (not_prn k)⟩
    · exact .inr ⟨k, hi, out⟩

/-- `s` with earlier values put before its output. -/
def State.afterOutput (s : State) (earlier : List Byte) : State := { s with out := earlier ++ s.out }

/-- No instruction reads the output: with earlier output its effect is the same. -/
theorem Effect.afterOutput {i : Instr} {s t : State} (e : Effect i s t) (earlier : List Byte) :
    Effect i (s.afterOutput earlier) (t.afterOutput earlier) := by
  cases e with
  | badIndex bad => exact .badIndex bad
  | hlt h => exact .hlt h
  | ldi k imm h => exact .ldi k imm h
  | prn k h =>
    have out : ((s.emit (s.reg k)).advance 2).afterOutput earlier =
        ((s.afterOutput earlier).emit (s.reg k)).advance 2 := by
      simp [State.afterOutput, State.emit, State.advance, State.setPc]
    exact out ▸ .prn k h
  | push k h room => exact .push k h room
  | pushFull k h full => exact .pushFull k h full
  | pop k h room => exact .pop k h room
  | popEmpty k h empty => exact .popEmpty k h empty
  | mul a b h => exact .mul a b h
  | and a b h => exact .and a b h
  | or a b h => exact .or a b h
  | xor a b h => exact .xor a b h
  | shl a b h => exact .shl a b h
  | shr a b h => exact .shr a b h
  | not a unused h => exact .not a unused h
  | mod a b h nonzero => exact .mod a b h nonzero
  | modZero a b h zero => exact .modZero a b h zero
  | cmp a b h => exact .cmp a b h
  | jmp k h => exact .jmp k h
  | jeq k h => rw [apply_ite (State.afterOutput · earlier)]; exact .jeq k h
  | jne k h => rw [apply_ite (State.afterOutput · earlier)]; exact .jne k h

/-- What is executed does not depend on the output (R18). -/
theorem Executes.afterOutput {o : Opcodes} {s : State} {i : Instr} (h : Executes o s i) (earlier : List Byte) :
    Executes o (s.afterOutput earlier) i := by
  obtain ⟨hr, hp, hd⟩ := executes_iff.1 h
  exact executes_iff.2 ⟨hr, hp, hd⟩

/-- Whether an opcode is skipped does not depend on the output. -/
theorem Skips.afterOutput {o : Opcodes} {s : State} (h : Skips o s) (earlier : List Byte) :
    Skips o (s.afterOutput earlier) := by
  obtain ⟨hr, hp, hn⟩ := skips_iff.1 h
  exact skips_iff.2 ⟨hr, hp, hn⟩

/-- No cycle reads the output. -/
theorem cycle_afterOutput {o : Opcodes} {s t : State} (h : cycle o s = .next t) (earlier : List Byte) :
    cycle o (s.afterOutput earlier) = .next (t.afterOutput earlier) := by
  cases cycleEffect_of_cycle h with
  | halted halted => exact cycle_halted halted
  | fetchFault running top => exact cycle_fetchFault running top
  | skips hs => exact (hs.afterOutput earlier).cycle_eq
  | executes hi e => exact (hi.afterOutput earlier).cycle_eq.trans (e.afterOutput earlier).exec_eq

/-- Settles O30: `cycle_afterOutput`. -/
theorem outputNeverRead : Obligations.OutputNeverRead := fun _ _ _ earlier h => cycle_afterOutput h earlier

end Sys2Proof.Machine

namespace Sys2Proof.Machine

open Config

/-! ### Memory (R16, R26 to R28) -/

/-- The first listed cell of a canonical memory reads other than the fill value. -/
theorem Memory.read_head_ne_fill {c : Host.Cell} {m : Memory} (canonical : Memory.wf (c :: m)) :
    Memory.read (c :: m) c.1 ≠ memFill := by
  obtain ⟨-, ⟨-, listed⟩, -⟩ := (Memory.wf_cons c m).1 canonical
  rwa [Memory.read_cons, if_pos rfl]

/-- Of two canonical memories that read alike, neither begins below the other. -/
theorem Memory.head_le_of_read_eq {c d : Host.Cell} {m n : Memory} (hm : Memory.wf (c :: m))
    (hn : Memory.wf (d :: n)) (alike : ∀ a, Memory.read (c :: m) a = Memory.read (d :: n) a) : d.1 ≤ c.1 := by
  by_contra below
  rw [not_le] at below
  obtain ⟨above, -, -⟩ := (Memory.wf_cons d n).1 hn
  refine Memory.read_head_ne_fill hm ((alike c.1).trans (Memory.read_below ?_))
  exact List.forall_mem_cons.2 ⟨below, fun e he => below.trans (above e he)⟩

/-- Settles O8, by induction on both lists: the first cells are at the same address, hold what is read there, and
below the rests both read the fill value. -/
theorem canonicalMemoriesEqualWhenReadAlike : Obligations.CanonicalMemoriesEqualWhenReadAlike := by
  intro m
  induction m with
  | nil =>
    intro n _ hn alike
    cases n with
    | nil => rfl
    | cons d n => exact absurd (alike d.1).symm (Memory.read_head_ne_fill hn)
  | cons c m ih =>
    intro n hm hn alike
    cases n with
    | nil => exact absurd (alike c.1) (Memory.read_head_ne_fill hm)
    | cons d n =>
      have address : c.1 = d.1 :=
        le_antisymm (Memory.head_le_of_read_eq hn hm fun a => (alike a).symm)
          (Memory.head_le_of_read_eq hm hn alike)
      have value : c.2 = d.2 := by simpa [address] using alike c.1
      obtain ⟨hmAbove, -, hmRest⟩ := (Memory.wf_cons c m).1 hm
      obtain ⟨hnAbove, -, hnRest⟩ := (Memory.wf_cons d n).1 hn
      have rest (a : Nat) : Memory.read m a = Memory.read n a := by
        by_cases ha : a = c.1
        · rw [ha, Memory.read_below hmAbove, address, Memory.read_below hnAbove]
        · simpa [ha, address ▸ ha] using alike a
      rw [Prod.ext address value, ih n hmRest hnRest rest]

/-- Settles O7, by the four lemmas on the port inside and outside memory. -/
theorem accessOutsideMemoryFaults : Obligations.AccessOutsideMemoryFaults := by
  refine fun s a v => ⟨fun outside => ?_, fun ⟨low, high⟩ => ?_⟩
  · have outside : a < 0 ∨ 256 ≤ a := by omega
    exact ⟨memRead_outside s outside, memWrite_outside s outside v⟩
  · lift a to Nat using low
    have inside : a < 256 := by omega
    exact ⟨⟨_, memRead_inside s inside⟩, _, memWrite_inside s inside v⟩

/-- Settles O31: an executed instruction by `Effect.mem_cases`; no other cycle writes memory. -/
theorem onlyPushStores : Obligations.OnlyPushStores := by
  intro o s t canonical h
  cases cycleEffect_of_cycle h with
  | halted | fetchFault | skips => exact .inl fun _ => rfl
  | executes hi e =>
    obtain kept | ⟨k, v, rfl, room, stored⟩ := e.mem_cases
    · exact .inl fun a => by rw [kept]
    · refine .inr ⟨k, hi, room, fun a other => ?_⟩
      rw [stored, Memory.read_write canonical, if_neg other]

/-! ### Registers and output -/

/-- Settles O5: the frame of a register write, with `pc` moved by 0. -/
theorem registerHoldsLastWrite : Obligations.RegisterHoldsLastWrite := by
  intro s k v
  obtain ⟨written, registers, pc, memory, others⟩ := setReg_advance_frame s k v 0
  exact ⟨written, registers, memory, pc, others⟩

/-- Settles O34: `exec_hlt`. -/
theorem hltHalts : Obligations.HltHalts := exec_hlt

/-- Settles O36: PRN appends the register by `exec_prn`, and its operand byte is a register operand. -/
theorem prnEmitsRegister : Obligations.PrnEmitsRegister :=
  ⟨fun k s => ⟨_, exec_prn k s, rfl, fun _ _ => rfl, rfl, fun _ => rfl, rfl, rfl, rfl⟩,
    fun _ s bad => exec_of_bad_regOperand List.mem_cons_self bad s⟩

/-! ### PUSH (R64) -/

/-- The state a PUSH with room below the stack pointer answers. -/
def pushed (k : Fin 8) (s : State) : State :=
  ((s.setReg spReg (BitVec.ofNat 8 (s.sp.toNat - 1))).setMem
    (s.mem.write (s.sp.toNat - 1) ((s.setReg spReg (BitVec.ofNat 8 (s.sp.toNat - 1))).reg k))).advance 2

theorem exec_push_eq_pushed {k : Fin 8} {s : State} (room : 0 < s.sp.toNat) :
    exec (.push (regByte k)) s = .next (pushed k s) := exec_push room

theorem pushed_reg (k j : Fin 8) (s : State) :
    (pushed k s).reg j = if j = 7 then BitVec.ofNat 8 (s.sp.toNat - 1) else s.reg j :=
  State.setReg_reg s 7 j _

theorem pushed_sp_toNat (k : Fin 8) (s : State) : (pushed k s).sp.toNat = s.sp.toNat - 1 := by
  have range := s.sp.isLt
  rw [State.sp, spReg, pushed_reg, if_pos rfl, BitVec.toNat_ofNat]
  omega

theorem pushed_reg_of_ne {j : Fin 8} (other : j ≠ 7) (k : Fin 8) (s : State) :
    (pushed k s).reg j = s.reg j := by rw [pushed_reg, if_neg other]

/-- The byte PUSH stores is the register as it is after the decrement (decision D11). -/
theorem pushed_read {s : State} (canonical : s.mem.wf) (k : Fin 8) (a : Nat) :
    (pushed k s).mem.read a = if a = s.sp.toNat - 1 then (pushed k s).reg k else s.mem.read a :=
  Memory.read_write canonical _ _ a

theorem pushed_others (k : Fin 8) (s : State) : OthersKept s (pushed k s) := ⟨rfl, ⟨rfl, rfl⟩, rfl⟩

theorem pushAddress_eq {s : State} (room : 0 < s.sp.toNat) : pushAddress s = ((s.sp.toNat - 1 : Nat) : Int) := by
  rw [pushAddress]; omega

/-- Settles O37, by what each register and each cell reads in `pushed`. -/
theorem pushStoresBelowStackPointer : Obligations.PushStoresBelowStackPointer := by
  intro k s canonical room
  refine ⟨_, exec_push_eq_pushed room, pushed_sp_toNat k s,
    fun j other => pushed_reg_of_ne (List.ne_of_not_mem_cons other) k s, pushAddress_eq room, fun a address => ?_,
    rfl, pushed_others k s⟩
  obtain rfl : s.sp.toNat - 1 = a := Int.ofNat.inj ((pushAddress_eq room).symm.trans address)
  refine ⟨?_, fun c other => by rw [pushed_read canonical, if_neg other]⟩
  rw [pushed_read canonical, if_pos rfl]
  split
  · next h => rw [h]; rfl
  · next h => exact pushed_reg_of_ne h k s

/-- A PUSH that leaves the machine RUNNING had room below the stack pointer. -/
theorem push_room_of_running {k : Fin 8} {s t : State} (h : exec (.push (regByte k)) s = .next t)
    (running : t.run = .running) : 0 < s.sp.toNat := by
  refine Nat.pos_of_ne_zero fun full => ?_
  rw [exec_push_full full] at h
  obtain rfl := Host.Outcome.next.inj h
  cases running

/-- Settles O33: each fetched byte is the cell at its address, and `pushed_read` gives the one stored to. -/
theorem storeSeenByNextFetch : Obligations.StoreSeenByNextFetch := by
  intro k s t op a b canonical h _ _ running fetched
  have room := push_room_of_running h running
  rw [exec_push_eq_pushed room] at h
  obtain rfl := Host.Outcome.next.inj h
  have stored (n : Nat) (address : (n : Int) = pushAddress s) : (pushed k s).mem.read n = (pushed k s).reg k := by
    rw [pushAddress_eq room] at address
    rw [pushed_read canonical, if_pos (Int.ofNat.inj address)]
  obtain ⟨-, bytes⟩ | ⟨-, bytes⟩ := fetch_cases (pushed k s) <;> cases bytes.symm.trans fetched
  exact ⟨stored _, stored _, stored _⟩

/-! ### POP (R65) -/

/-- The state a POP with its new stack pointer inside memory answers. -/
def popped (k : Fin 8) (s : State) : State :=
  ((s.setReg k (s.mem.read s.sp.toNat)).setReg spReg (BitVec.ofNat 8 ((popBase k s).toNat + 1))).advance 2

theorem exec_pop_eq_popped {k : Fin 8} {s : State} (room : (popBase k s).toNat < 255) :
    exec (.pop (regByte k)) s = .next (popped k s) := exec_pop room

theorem popped_sp_toNat {k : Fin 8} {s : State} (room : (popBase k s).toNat < 255) :
    (popped k s).sp.toNat = (popBase k s).toNat + 1 := by
  have sp : (popped k s).sp = BitVec.ofNat 8 ((popBase k s).toNat + 1) :=
    (State.setReg_reg _ 7 7 _).trans (if_pos rfl)
  rw [sp, BitVec.toNat_ofNat]
  omega

theorem popped_reg_of_ne {j : Fin 8} (other : j ≠ 7) (k : Fin 8) (s : State) :
    (popped k s).reg j = if j = k then s.mem.read s.sp.toNat else s.reg j := by
  simp [popped, spReg, other]

theorem popped_others (k : Fin 8) (s : State) : OthersKept s (popped k s) := ⟨rfl, ⟨rfl, rfl⟩, rfl⟩

/-- Settles O38, by what each register reads in `popped`. -/
theorem popLoadsFromStackPointer : Obligations.PopLoadsFromStackPointer := by
  intro k s room
  refine ⟨_, exec_pop_eq_popped room, fun other => ?_, popped_sp_toNat room, fun j other => ?_, rfl, fun _ => rfl,
    popped_others k s⟩
  · rw [popped_reg_of_ne other, if_pos rfl]
  · obtain ⟨not_k, not_sp⟩ : j ≠ k ∧ j ≠ 7 := by simpa using other
    rw [popped_reg_of_ne not_sp, if_neg not_k]

/-- Settles O39: `exec_push_full` and `exec_pop_empty`. -/
theorem stackEdgesFault : Obligations.StackEdgesFault := ⟨fun _ _ => exec_push_full, fun _ _ => exec_pop_empty⟩

/-! ### PUSH, then POP (R66) -/

/-- A PUSH leaves the register it stored at the top of the stack. -/
theorem pushed_read_sp {s : State} (canonical : s.mem.wf) (k : Fin 8) :
    (pushed k s).mem.read (pushed k s).sp.toNat = (pushed k s).reg k := by
  rw [pushed_read canonical, if_pos (pushed_sp_toNat k s)]

/-- After a PUSH of a register, POP of it takes the stack pointer from where the PUSH left it, register 7 included. -/
theorem popBase_pushed {s : State} (canonical : s.mem.wf) (k : Fin 8) :
    popBase k (pushed k s) = (pushed k s).sp := by
  rw [popBase, pushed_read_sp canonical]
  split
  · next h => rw [h]; rfl
  · rfl

/-- After a PUSH with room, the POP of the same register has room too. -/
theorem popBase_pushed_toNat {s : State} (canonical : s.mem.wf) (k : Fin 8) :
    (popBase k (pushed k s)).toNat = s.sp.toNat - 1 := by
  rw [popBase_pushed canonical, pushed_sp_toNat]

/-- PUSH and then POP of one register leaves every register as before. -/
theorem popped_pushed_reg {s : State} (canonical : s.mem.wf) (room : 0 < s.sp.toNat) (k j : Fin 8) :
    (popped k (pushed k s)).reg j = s.reg j := by
  by_cases sp : j = 7
  · subst sp
    have base := popBase_pushed_toNat canonical k
    have range := s.sp.isLt
    apply BitVec.eq_of_toNat_eq
    change (popped k (pushed k s)).sp.toNat = s.sp.toNat
    rw [popped_sp_toNat (by omega), base, Nat.sub_add_cancel room]
  · rw [popped_reg_of_ne sp, pushed_read_sp canonical, pushed_reg_of_ne sp]
    split
    · next h => rw [← h, pushed_reg_of_ne sp]
    · rfl

/-- Settles O40: the registers by `popped_pushed_reg`, memory by `pushed_read`, since POP leaves it. -/
theorem pushThenPopRestoresRegisters : Obligations.PushThenPopRestoresRegisters := by
  intro k s canonical room
  have range := s.sp.isLt
  have base := popBase_pushed_toNat canonical k
  refine ⟨_, _, exec_push_eq_pushed room, exec_pop_eq_popped (by omega),
    fun j _ => popped_pushed_reg canonical room k j, fun a other => ?_, ?_, rfl, ⟨rfl, ⟨rfl, rfl⟩, rfl⟩⟩
  · exact (pushed_read canonical k a).trans (if_neg other)
  · have stored : (popped k (pushed k s)).mem.read (s.sp.toNat - 1) = (pushed k s).reg k :=
      (pushed_read canonical k _).trans (if_pos rfl)
    rw [stored]
    split
    · next h => rw [h]; exact pushed_sp_toNat 7 s
    · next h => rw [pushed_reg_of_ne h]

end Sys2Proof.Machine

namespace Sys2Proof.Machine

/-! ### NOT, SHL, SHR and MOD (R72 to R75) -/

theorem aluNot_toNat (a : Byte) : (aluNot a).toNat = 255 - a.toNat := by
  rw [aluNot, BitVec.toNat_ofNat]
  omega

theorem aluShl_toNat (a b : Byte) : (aluShl a b).toNat = a.toNat * 2 ^ b.toNat % 256 := BitVec.toNat_ofNat _ 8

theorem aluShr_toNat (a b : Byte) : (aluShr a b).toNat = a.toNat / 2 ^ b.toNat := by
  rw [aluShr, BitVec.toNat_ofNat]
  exact Nat.mod_eq_of_lt ((Nat.div_le_self _ _).trans_lt a.isLt)

/-- A left shift by 8 or more leaves no bit in the byte (decision D12). -/
theorem aluShl_of_eight_le (a : Byte) {b : Byte} (large : 8 ≤ b.toNat) : (aluShl a b).toNat = 0 := by
  have whole : 256 ∣ 2 ^ b.toNat := Nat.pow_dvd_pow 2 large
  rw [aluShl_toNat]
  exact Nat.mod_eq_zero_of_dvd (whole.mul_left _)

/-- A right shift by 8 or more leaves no bit in the byte (decision D12). -/
theorem aluShr_of_eight_le (a : Byte) {b : Byte} (large : 8 ≤ b.toNat) : (aluShr a b).toNat = 0 := by
  have past : a.toNat < 2 ^ b.toNat := a.isLt.trans_le (Nat.pow_le_pow_right (by decide) large)
  rw [aluShr_toNat, Nat.div_eq_of_lt past]

/-- Complementing twice restores the byte (R72). -/
theorem aluNot_aluNot (a : Byte) : aluNot (aluNot a) = a := by
  apply BitVec.eq_of_toNat_eq
  rw [aluNot_toNat, aluNot_toNat]
  omega

/-- Settles O43: NOT is one register write, of the value `aluNot_toNat` gives. -/
theorem notComplements : Obligations.NotComplements :=
  ⟨fun a unused s => exec_register_write (fun v => v.toNat = 255 - (s.reg a).toNat) (exec_not a unused s)
      (aluNot_toNat _),
    fun _ _ s bad => exec_of_bad_regOperand List.mem_cons_self bad s⟩

/-- Settles O44: the second NOT writes `aluNot` of what the first wrote, the old value. -/
theorem notTwiceRestores : Obligations.NotTwiceRestores := by
  refine fun a x y s => ⟨_, _, exec_not a x s, exec_not a y _, fun j _ => ?_, rfl⟩
  by_cases h : j = a <;> simp [h, aluNot_aluNot]

/-- Settles O45: each shift is one register write, of the value its `toNat` lemma gives. -/
theorem shiftsByWholeCount : Obligations.ShiftsByWholeCount := by
  refine ⟨fun a b s => ⟨?_, ?_⟩, fun ra rb s bad => ⟨?_, ?_⟩⟩
  · obtain ⟨t, answer, ⟨value, large⟩, frame⟩ := exec_register_write
      (fun v => v.toNat = (s.reg a).toNat * 2 ^ (s.reg b).toNat % 256 ∧ (8 ≤ (s.reg b).toNat → v.toNat = 0))
      (exec_shl a b s) ⟨aluShl_toNat _ _, aluShl_of_eight_le _⟩
    exact ⟨t, answer, value, large, frame⟩
  · obtain ⟨t, answer, ⟨value, large⟩, frame⟩ := exec_register_write
      (fun v => v.toNat = (s.reg a).toNat / 2 ^ (s.reg b).toNat ∧ (8 ≤ (s.reg b).toNat → v.toNat = 0))
      (exec_shr a b s) ⟨aluShr_toNat _ _, aluShr_of_eight_le _⟩
    exact ⟨t, answer, value, large, frame⟩
  all_goals exact exec_of_bad_regOperands rfl bad s

/-- The remainder of a byte fits in a byte. -/
theorem toNat_ofNat_mod (a b : Byte) : (BitVec.ofNat 8 (a.toNat % b.toNat)).toNat = a.toNat % b.toNat := by
  rw [BitVec.toNat_ofNat]
  exact Nat.mod_eq_of_lt ((Nat.mod_le _ _).trans_lt a.isLt)

/-- Settles O46: with a divisor MOD is one register write, of a remainder below it; the two faults by
`exec_mod_zero` and the register operands. -/
theorem modLeavesRemainder : Obligations.ModLeavesRemainder := by
  refine ⟨fun a b s nonzero => ?_, fun _ _ _ => exec_mod_zero, fun _ _ s bad => exec_of_bad_regOperands rfl bad s⟩
  have below : (s.reg a).toNat % (s.reg b).toNat < (s.reg b).toNat := Nat.mod_lt _ (Nat.pos_of_ne_zero nonzero)
  obtain ⟨t, answer, value, frame⟩ := exec_register_write
    (fun v => v.toNat = (s.reg a).toNat % (s.reg b).toNat) (exec_mod nonzero) (toNat_ofNat_mod _ _)
  exact ⟨t, answer, value, value ▸ below, frame⟩

/-! ### The ALU contract (R67) -/

/-- An instruction of the shared ALU shape that records no fault writes its first register and moves `pc` by 3. -/
theorem aluBinary_completes {f : Byte → Byte → Except Cause Byte} {a : Fin 8} {rb : Byte} {s t : State}
    (h : aluBinary f (regByte a) rb s = .next t) (clean : t.fault = .none) :
    ∃ v, t = (s.setReg a v).advance 3 := by
  have not_fault (c : Cause) : aluBinary f (regByte a) rb s ≠ .next (takeFault c s) := fun answer => by
    obtain rfl := Host.Outcome.next.inj (h.symm.trans answer)
    exact c.code_ne_none clean
  obtain ⟨b, rfl⟩ | ⟨bad, -⟩ := checkReg_cases rb
  · cases value : f (s.reg a) (s.reg b) with
    | error c => exact absurd (aluBinary_error value) (not_fault c)
    | ok v => exact ⟨v, Host.Outcome.next.inj (h.symm.trans (aluBinary_ok value))⟩
  · exact absurd (aluBinary_bad (.inr bad) f s) (not_fault .address)

/-- CMP that records no fault writes the flag and moves `pc` by 3. -/
theorem cmp_completes {ra rb : Byte} {s t : State} (h : exec (.cmp ra rb) s = .next t) (clean : t.fault = .none) :
    ∃ b, t = (s.setFl b).advance 3 := by
  have not_bad : ¬ (7 < ra.toNat ∨ 7 < rb.toNat) := fun bad => by
    obtain rfl := Host.Outcome.next.inj (h.symm.trans (exec_of_bad_regOperands rfl bad s))
    cases clean
  obtain ⟨a, rfl⟩ | ⟨bad, -⟩ := checkReg_cases ra
  · obtain ⟨b, rfl⟩ | ⟨bad, -⟩ := checkReg_cases rb
    · exact ⟨_, Host.Outcome.next.inj (h.symm.trans (exec_cmp a b s))⟩
    · exact absurd (.inr bad) not_bad
  · exact absurd (.inl bad) not_bad

/-- Settles O48: seven operations share `aluBinary`'s shape and NOT always completes, each as one register write;
CMP completes as one write of the flag. -/
theorem aluWritesFirstOperandOnly : Obligations.AluWritesFirstOperandOnly := by
  refine ⟨fun a rb s t i listed _ h clean => ?_, fun ra rb s t _ h clean => ?_⟩
  · obtain ⟨v, rfl⟩ : ∃ v, t = (s.setReg a v).advance 3 := by
      simp only [List.mem_cons, List.not_mem_nil, or_false] at listed
      obtain rfl | rfl | rfl | rfl | rfl | rfl | rfl | rfl := listed
      · exact aluBinary_completes (f := fun x y => .ok (aluMul x y)) h clean
      · exact aluBinary_completes (f := fun x y => .ok (aluAnd x y)) h clean
      · exact aluBinary_completes (f := fun x y => .ok (aluOr x y)) h clean
      · exact aluBinary_completes (f := fun x y => .ok (aluXor x y)) h clean
      · exact ⟨_, Host.Outcome.next.inj (h.symm.trans (exec_not a rb s))⟩
      · exact aluBinary_completes (f := fun x y => .ok (aluShl x y)) h clean
      · exact aluBinary_completes (f := fun x y => .ok (aluShr x y)) h clean
      · exact aluBinary_completes (f := aluMod) h clean
    exact (setReg_advance_frame s a v 3).2
  · obtain ⟨b, rfl⟩ := cmp_completes h clean
    exact setFl_advance_frame s b 3

/-! ### JEQ and JNE (R80, R81) -/

/-- Settles O50: the two jumps by the flag's two values; their operand byte is a register operand. -/
theorem conditionalJumpsTestFlag : Obligations.ConditionalJumpsTestFlag := by
  refine ⟨fun k s => ?_, fun r s bad =>
    ⟨exec_of_bad_regOperand List.mem_cons_self bad s, exec_of_bad_regOperand List.mem_cons_self bad s⟩⟩
  rw [exec_jeq, exec_jne]
  cases h : s.fl <;> simp [State.setPc, State.advance, h]

end Sys2Proof.Machine
